-- ==== Sys2Proof/Word.lean ====
section
/-! DEFINITION. The word types of the Good-Apple-CPU block. Registers and instruction words are 32 bits
wide (spec/00_scope.md R8, R12), memory is an array of 8-bit bytes (spec/20_memory.md R50). Bits are
numbered from 0, the least significant (R11), which is how BitVec numbers them. -/

namespace Sys2Proof

/-- A register value or an instruction word: an unsigned 32-bit integer, arithmetic modulo 2^32 (R12, R22). -/
abbrev Word := BitVec 32

/-- One byte of memory (R50). -/
abbrev Byte := BitVec 8

end Sys2Proof
end

