-- ==== Sys2Proof/Syntax.lean ====
section
/-! DEFINITION. The 29 instructions (spec/30_encoding.md R79), one constructor per row of
spec/opcode_table.json, in the table's order, each with exactly the fields its operation uses (R73, R74).
Operand types have the width of their encoding field (R71), so every term is an instruction some word holds. -/

namespace Sys2Proof

/-- A register number, one of the 32 slots r0 to r31 (spec/10_state.md R20, R23). -/
abbrev Reg := BitVec 5

/-- The field imm16 (R71). -/
abbrev Imm16 := BitVec 16

/-- The field imm26, a word count (R71, R78). -/
abbrev Imm26 := BitVec 26

/-- The program counter is register slot 30 (spec/10_state.md R25). -/
@[simp] abbrev Reg.pc : Reg := 30#5

/-- The flags register is register slot 31 (spec/10_state.md R27). -/
@[simp] abbrev Reg.flags : Reg := 31#5

/-- The 29 operations, in the source's table order (R79). -/
inductive Op where
  | not | xor | or | and
  | shl | shr | rotl | rotr
  | add | sub | inc | dec | mul
  | ori | andi | addi
  | mov | sw | lw | movh
  | jmp | jz | jnz | jmpi | jmpiz | jmpinz
  | read | draw | clear
  deriving DecidableEq, Repr

/-- Every operation once, in the table's order (R79). -/
def Op.all : List Op :=
  [.not, .xor, .or, .and, .shl, .shr, .rotl, .rotr] ++
  [.add, .sub, .inc, .dec, .mul, .ori, .andi, .addi] ++
  [.mov, .sw, .lw, .movh] ++
  [.jmp, .jz, .jnz, .jmpi, .jmpiz, .jmpinz, .read, .draw, .clear]

/-- An instruction with the fields its operation uses, in field order r1, r2, r3, r4, immediate (R74, R84). -/
inductive Instr where
  /-- `NOT r1, r2` (R101). -/
  | not (r1 r2 : Reg)
  /-- `XOR r1, r2, r3` (R102). -/
  | xor (r1 r2 r3 : Reg)
  /-- `OR r1, r2, r3` (R103). -/
  | or (r1 r2 r3 : Reg)
  /-- `AND r1, r2, r3` (R104). -/
  | and (r1 r2 r3 : Reg)
  /-- `SHL r1, r2` (R105). -/
  | shl (r1 r2 : Reg)
  /-- `SHR r1, r2` (R106). -/
  | shr (r1 r2 : Reg)
  /-- `ROTL r1, r2` (R107). -/
  | rotl (r1 r2 : Reg)
  /-- `ROTR r1, r2` (R108). -/
  | rotr (r1 r2 : Reg)
  /-- `ADD r1, r2, r3` (R109). -/
  | add (r1 r2 r3 : Reg)
  /-- `SUB r1, r2, r3` (R110). -/
  | sub (r1 r2 r3 : Reg)
  /-- `INC r1, r2` (R111). -/
  | inc (r1 r2 : Reg)
  /-- `DEC r1, r2` (R112). -/
  | dec (r1 r2 : Reg)
  /-- `MUL r1, r2, r3, r4`: r1 takes the low word, r2 the high word (R113). -/
  | mul (r1 r2 r3 r4 : Reg)
  /-- `ORI r1, r2, imm16` (R114). -/
  | ori (r1 r2 : Reg) (imm16 : Imm16)
  /-- `ANDI r1, r2, imm16` (R115). -/
  | andi (r1 r2 : Reg) (imm16 : Imm16)
  /-- `ADDI r1, r2, imm16` (R116). -/
  | addi (r1 r2 : Reg) (imm16 : Imm16)
  /-- `MOV r1, r2` (R141). -/
  | mov (r1 r2 : Reg)
  /-- `SW r1, r2`: r1 holds the word index, r2 the data (R142). -/
  | sw (r1 r2 : Reg)
  /-- `LW r1, r2`: r2 holds the word index (R143). -/
  | lw (r1 r2 : Reg)
  /-- `MOVH r1, imm16` (R144). -/
  | movh (r1 : Reg) (imm16 : Imm16)
  /-- `JMP r1` (R164). -/
  | jmp (r1 : Reg)
  /-- `JZ r1` (R165). -/
  | jz (r1 : Reg)
  /-- `JNZ r1` (R166). -/
  | jnz (r1 : Reg)
  /-- `JMPI imm26` (R167). -/
  | jmpi (imm26 : Imm26)
  /-- `JMPIZ imm26` (R168). -/
  | jmpiz (imm26 : Imm26)
  /-- `JMPINZ imm26` (R169). -/
  | jmpinz (imm26 : Imm26)
  /-- `READ r1` (R181). -/
  | read (r1 : Reg)
  /-- `DRAW r1, r2`: r1 holds the coordinates, r2 the colour (R182). -/
  | draw (r1 r2 : Reg)
  /-- `CLEAR` (R183). -/
  | clear
  deriving DecidableEq, Repr

/-- The operation of an instruction. -/
def Instr.op : Instr → Op
  | .not .. => .not
  | .xor .. => .xor
  | .or .. => .or
  | .and .. => .and
  | .shl .. => .shl
  | .shr .. => .shr
  | .rotl .. => .rotl
  | .rotr .. => .rotr
  | .add .. => .add
  | .sub .. => .sub
  | .inc .. => .inc
  | .dec .. => .dec
  | .mul .. => .mul
  | .ori .. => .ori
  | .andi .. => .andi
  | .addi .. => .addi
  | .mov .. => .mov
  | .sw .. => .sw
  | .lw .. => .lw
  | .movh .. => .movh
  | .jmp .. => .jmp
  | .jz .. => .jz
  | .jnz .. => .jnz
  | .jmpi .. => .jmpi
  | .jmpiz .. => .jmpiz
  | .jmpinz .. => .jmpinz
  | .read .. => .read
  | .draw .. => .draw
  | .clear => .clear

/-! The spec's assembler source (spec/30_encoding.md R84 to R87). It names registers and numbers that may be out of
range; `checkSource` (WellFormed.lean) says which lines are legal. -/

/-- A pseudo-instruction: it stands for the sequence its expansion gives (R87). -/
inductive Pseudo where
  /-- `NOP`. -/
  | nop
  /-- `LI rd, imm32`. -/
  | li (rd : Reg) (imm32 : Word)
  /-- `CMP ra, rb`. -/
  | cmp (ra rb : Reg)
  /-- `TST ra`. -/
  | tst (ra : Reg)
  /-- `SETZ`. -/
  | setz
  /-- `CLRZ`. -/
  | clrz
  /-- `NEG rd, rs`. -/
  | neg (rd rs : Reg)
  /-- `J target`, the target given by its word count. -/
  | j (target : Imm26)
  /-- `HALT`, a jump to its own address, given by its word count. -/
  | halt (self : Imm26)
  deriving DecidableEq, Repr

/-- One operand of an assembler source line, before any range check (R84): a register by its number,
a number (an immediate, or the byte address of a jump target), or a label. -/
inductive SrcOperand where
  | reg (n : Nat)
  | num (n : Int)
  | label (name : String)
  deriving DecidableEq, Repr

/-- One assembler source line: the mnemonic, then the operands in field order (R84). -/
structure SrcLine where
  op : Op
  operands : List SrcOperand
  deriving DecidableEq, Repr

/-- What one statement of a source program assembles: an instruction, or a pseudo-instruction, where `halt` takes
the address it comes to stand at and `J label` is written as its expansion, `JMPI label`. -/
inductive SrcItem where
  | line (l : SrcLine)
  | pseudo (p : Pseudo)
  deriving DecidableEq, Repr

/-- One statement of a source program, with the labels that mark it (R84). -/
structure SrcStmt where
  labels : List String
  item : SrcItem
  deriving DecidableEq, Repr

end Sys2Proof
end

