-- ==== Sys2Proof/Config.lean ====
section
/-! DEFINITION. The parameters of a run (spec/00_scope.md R9, spec/10_state.md R37): the values the source
leaves open, each one an argument of the model. A Config is plain data that State carries and no step
changes, so a statement about every state is a statement about every value of every parameter.
The uninterpreted constants at the end stand for the choices that no parameter names. -/

namespace Sys2Proof

/-- `OPC` (spec/30_encoding.md R79): the 6-bit opcode value of each operation. The source gives none of them, so
the map is data; `OpcodeMap.wf` (WellFormed.lean) says it is injective. -/
structure OpcodeMap where
  not : BitVec 6
  xor : BitVec 6
  or : BitVec 6
  and : BitVec 6
  shl : BitVec 6
  shr : BitVec 6
  rotl : BitVec 6
  rotr : BitVec 6
  add : BitVec 6
  sub : BitVec 6
  inc : BitVec 6
  dec : BitVec 6
  mul : BitVec 6
  ori : BitVec 6
  andi : BitVec 6
  addi : BitVec 6
  mov : BitVec 6
  sw : BitVec 6
  lw : BitVec 6
  movh : BitVec 6
  jmp : BitVec 6
  jz : BitVec 6
  jnz : BitVec 6
  jmpi : BitVec 6
  jmpiz : BitVec 6
  jmpinz : BitVec 6
  read : BitVec 6
  draw : BitVec 6
  clear : BitVec 6
  deriving DecidableEq, Repr

/-- `OPC(op)`, the opcode value of one operation (R79). -/
def OpcodeMap.code (m : OpcodeMap) : Op → BitVec 6
  | .not => m.not
  | .xor => m.xor
  | .or => m.or
  | .and => m.and
  | .shl => m.shl
  | .shr => m.shr
  | .rotl => m.rotl
  | .rotr => m.rotr
  | .add => m.add
  | .sub => m.sub
  | .inc => m.inc
  | .dec => m.dec
  | .mul => m.mul
  | .ori => m.ori
  | .andi => m.andi
  | .addi => m.addi
  | .mov => m.mov
  | .sw => m.sw
  | .lw => m.lw
  | .movh => m.movh
  | .jmp => m.jmp
  | .jz => m.jz
  | .jnz => m.jnz
  | .jmpi => m.jmpi
  | .jmpiz => m.jmpiz
  | .jmpinz => m.jmpinz
  | .read => m.read
  | .draw => m.draw
  | .clear => m.clear

/-- `MISALIGNED_FETCH` (spec/20_memory.md R57): what a fetch at a PC that is not a multiple of 4 does. -/
inductive MisalignedFetch where
  /-- The four bytes at the unaligned PC are fetched, under the bound check. -/
  | byteFetch
  /-- The step raises MemFault(Fetch, pc, pc) before any byte is read. -/
  | fault
  deriving DecidableEq, Repr

/-- `PC_SEQ_BASE` (spec/42_control.md R172): which value the sequential PC update adds 4 to when the instruction
wrote r30. The spec takes no value for it; `notTold` is a run that is not told one. -/
inductive PcSeqBase where
  /-- The fetch address: the value written to r30 is lost. -/
  | fetchPC
  /-- The value of slot 30 after the instruction's own writes. -/
  | r30AfterExecute
  /-- Not told: one of the two, by the uninterpreted constant `Config.untoldBaseIsFetchPC`. -/
  | notTold
  deriving DecidableEq, Repr

/-- `INPUT` (spec/10_state.md R42): the value each call of the input source returns. -/
inductive InputSource where
  /-- The reference policy: every call returns 0 (spec/00_scope.md R10). -/
  | alwaysZero
  /-- The calls return these values in order, and a value nothing constrains (`Config.freeInput`) once they
  are used up: `free []` is an input source of which nothing is known. -/
  | free (values : List Word)
  deriving DecidableEq, Repr

/-- The parameters of a run (R9), fixed for the run. -/
structure Config where
  /-- `OPC`. -/
  opc : OpcodeMap
  /-- `MEM_BYTES`, the memory capacity C in bytes. -/
  memBytes : Nat
  /-- `MISALIGNED_FETCH`. -/
  misalignedFetch : MisalignedFetch
  /-- `PC_SEQ_BASE`. -/
  pcSeqBase : PcSeqBase
  /-- `ZF_LW`: whether LW updates the zero flag (spec/10_state.md R30). -/
  zfLw : Bool
  /-- `ZF_MOVH`: whether MOVH updates the zero flag. -/
  zfMovh : Bool
  /-- `ZF_READ`: whether READ updates the zero flag. -/
  zfRead : Bool
  /-- `INPUT`. -/
  input : InputSource
  deriving DecidableEq, Repr

/-- The value the n-th call of the input source returns where nothing is known of it (R42: any 32-bit
value per call). Uninterpreted: nothing constrains it (notes/assumptions/3.md). -/
opaque Config.freeInput : Nat → Word

/-- Whether the block takes a raised cancellation request at the n-th step boundary it is raised at
(spec/60_exceptions.md R212: the moment is not fixed). Uninterpreted (notes/assumptions/5.md). -/
opaque Config.cancelTaken : Nat → Bool

/-- Which of its two values `PC_SEQ_BASE` has in a run that is not told one (R172).
Uninterpreted (notes/assumptions/4.md). -/
opaque Config.untoldBaseIsFetchPC : Bool

end Sys2Proof
end

