-- ==== Sys2Proof/WellFormed.lean ====
section
/-! DEFINITION. What is checked before a run or before a word is assembled: the opcode map is injective
(spec/30_encoding.md R79), the memory capacity meets its constraint (spec/00_scope.md R9), a program image
fits in memory (spec/70_reset_and_hazards.md R231), and an assembler operand is in its range (R84). The decoder itself
validates nothing (R72): each term of Instr is an instruction some word holds, so Instr needs no check. -/

namespace Sys2Proof

/-- `OPC` is injective: no two operations share a value (R79). -/
abbrev OpcodeMap.wf (m : OpcodeMap) : Prop := (Op.all.map m.code).Nodup

/-- The capacity is a multiple of 4 with 4 ≤ C ≤ 2^32 (R9). -/
abbrev memBytesWf (c : Nat) : Prop := c % 4 = 0 ∧ 4 ≤ c ∧ c ≤ 2 ^ 32

/-- The parameters meet every constraint the spec puts on them (R9). -/
abbrev Config.wf (c : Config) : Prop := c.opc.wf ∧ memBytesWf c.memBytes

/-- An image of more than C bytes is not loaded (R231). -/
abbrev imageFits (c : Config) (image : List Byte) : Prop := image.length ≤ c.memBytes

/-- A register operand names one of r0 to r31 (R84, R86). -/
def SrcOperand.isReg : SrcOperand → Bool
  | .reg n => n < 32
  | .num _ | .label _ => false

/-- imm16 written as an unsigned number from 0 to 0xFFFF (R84). -/
def SrcOperand.isImm16 : SrcOperand → Bool
  | .reg _ | .label _ => false
  | .num v => 0 ≤ v && v ≤ 0xFFFF

/-- ADDI's imm16 may also be written as a signed number from -32768 (R84). -/
def SrcOperand.isSignedImm16 : SrcOperand → Bool
  | .reg _ | .label _ => false
  | .num v => -32768 ≤ v && v ≤ 0xFFFF

/-- A jump target is written as a byte address, a multiple of 4 below 2^28 (R84). -/
def SrcOperand.isTarget : SrcOperand → Bool
  | .reg _ | .label _ => false
  | .num v => 0 ≤ v && v < 2 ^ 28 && v % 4 == 0

/-- What stands at each operand place of an operation's source line, by its format (R73, R84). -/
def Op.places : Op → List (SrcOperand → Bool)
  | .not | .shl | .shr | .rotl | .rotr | .inc | .dec | .mov | .sw | .lw | .draw =>
      [SrcOperand.isReg, SrcOperand.isReg]
  | .xor | .or | .and | .add | .sub => [SrcOperand.isReg, SrcOperand.isReg, SrcOperand.isReg]
  | .mul => [SrcOperand.isReg, SrcOperand.isReg, SrcOperand.isReg, SrcOperand.isReg]
  | .ori | .andi => [SrcOperand.isReg, SrcOperand.isReg, SrcOperand.isImm16]
  | .addi => [SrcOperand.isReg, SrcOperand.isReg, SrcOperand.isSignedImm16]
  | .movh => [SrcOperand.isReg, SrcOperand.isImm16]
  | .jmp | .jz | .jnz | .read => [SrcOperand.isReg]
  | .jmpi | .jmpiz | .jmpinz => [SrcOperand.isTarget]
  | .clear => []

/-- Every operand meets the check of its place, and there are as many operands as places. -/
def operandsMatch : List (SrcOperand → Bool) → List SrcOperand → Bool
  | [], [] => true
  | p :: ps, o :: os => p o && operandsMatch ps os
  | _, _ => false

/-- A source line the spec's assembler accepts (R84, R85), its labels replaced by addresses. -/
def checkSource (l : SrcLine) : Bool := operandsMatch l.op.places l.operands

end Sys2Proof
end

