-- ==== Sys2Proof/Decode.lean ====
section
/-! DEFINITION. The decoder and the encoder (spec/30_encoding.md). The decoder cuts seven fields from fixed
positions (R71), never fails and never looks at a bit its operation does not use (R72); dispatch on the opcode
field gives the operation or rejects the opcode by its value (R80). The encoder writes the R73 bit patterns
with 0 in every ignored bit (R82). Both take the opcode map `OPC` as an argument, because the spec leaves it
open (R79). -/

namespace Sys2Proof

/-- The seven fields of an instruction word (R71). They overlap. -/
structure Fields where
  opcode : BitVec 6
  r1 : Reg
  r2 : Reg
  r3 : Reg
  r4 : Reg
  imm16 : Imm16
  imm26 : Imm26
  deriving DecidableEq, Repr

/-- `decode(w)` of R71: bits 31..26, 25..21, 20..16, 15..11, 10..6, 15..0 and 25..0. -/
def fields (w : Word) : Fields where
  opcode := w.extractLsb' 26 6
  r1 := w.extractLsb' 21 5
  r2 := w.extractLsb' 16 5
  r3 := w.extractLsb' 11 5
  r4 := w.extractLsb' 6 5
  imm16 := w.extractLsb' 0 16
  imm26 := w.extractLsb' 0 26

/-- The instruction of an operation, from the fields that operation uses (R74). -/
def Op.instr (d : Fields) : Op → Instr
  | .not => .not d.r1 d.r2
  | .xor => .xor d.r1 d.r2 d.r3
  | .or => .or d.r1 d.r2 d.r3
  | .and => .and d.r1 d.r2 d.r3
  | .shl => .shl d.r1 d.r2
  | .shr => .shr d.r1 d.r2
  | .rotl => .rotl d.r1 d.r2
  | .rotr => .rotr d.r1 d.r2
  | .add => .add d.r1 d.r2 d.r3
  | .sub => .sub d.r1 d.r2 d.r3
  | .inc => .inc d.r1 d.r2
  | .dec => .dec d.r1 d.r2
  | .mul => .mul d.r1 d.r2 d.r3 d.r4
  | .ori => .ori d.r1 d.r2 d.imm16
  | .andi => .andi d.r1 d.r2 d.imm16
  | .addi => .addi d.r1 d.r2 d.imm16
  | .mov => .mov d.r1 d.r2
  | .sw => .sw d.r1 d.r2
  | .lw => .lw d.r1 d.r2
  | .movh => .movh d.r1 d.imm16
  | .jmp => .jmp d.r1
  | .jz => .jz d.r1
  | .jnz => .jnz d.r1
  | .jmpi => .jmpi d.imm26
  | .jmpiz => .jmpiz d.imm26
  | .jmpinz => .jmpinz d.imm26
  | .read => .read d.r1
  | .draw => .draw d.r1 d.r2
  | .clear => .clear

/-- `dispatch` of R80: the operation whose `OPC` value the opcode field is, if there is one. -/
def dispatch (m : OpcodeMap) (opcode : BitVec 6) : Option Op :=
  Op.all.find? fun op => m.code op == opcode

/-- What a word decodes to: an instruction, or an opcode that no operation has (R80, R81). -/
inductive Decoded where
  | instr (i : Instr)
  /-- Rejected: the opcode field matches no operation. -/
  | undefinedOpcode (opcode : BitVec 6)
  deriving DecidableEq, Repr

/-- Field extraction, then dispatch on the opcode field (R71, R80). Total on every word (R72). -/
def decode (m : OpcodeMap) (w : Word) : Decoded :=
  match dispatch m (fields w).opcode with
  | some op => .instr (op.instr (fields w))
  | none => .undefinedOpcode (fields w).opcode

/-- The big-endian word of four bytes, the byte at the lowest address first (spec/20_memory.md R52, R54). -/
def wordOfBytes (b0 b1 b2 b3 : Byte) : Word := b0 ++ b1 ++ b2 ++ b3

/-- The four bytes of a word in memory order, big-endian (spec/20_memory.md R53). -/
def bytesOfWord (w : Word) : List Byte :=
  [w.extractLsb' 24 8, w.extractLsb' 16 8, w.extractLsb' 8 8, w.extractLsb' 0 8]

/-- What a byte sequence decodes to: an instruction is always 4 bytes long (R70). -/
inductive DecodedBytes where
  | decoded (d : Decoded) (rest : List Byte)
  /-- Rejected: fewer than the 4 bytes of an instruction are there. -/
  | truncated (bytes : List Byte)
  deriving DecidableEq, Repr

/-- The decoder on any bytes: the first 4 bytes as a big-endian word, and the bytes left over (R70). -/
def decodeBytes (m : OpcodeMap) : List Byte → DecodedBytes
  | b0 :: b1 :: b2 :: b3 :: rest => .decoded (decode m (wordOfBytes b0 b1 b2 b3)) rest
  | bytes => .truncated bytes

/-- Formats R3, R2, R4, R1 and N: opcode, four register fields, bits 5..0 zero (R73, R82). -/
def encR (o : BitVec 6) (a b c d : Reg) : Word := o ++ a ++ b ++ c ++ d ++ 0#6

/-- Formats I and U: opcode, two register fields, imm16 (R73, R82). -/
def encI (o : BitVec 6) (a b : Reg) (imm16 : Imm16) : Word := o ++ a ++ b ++ imm16

/-- Format J: opcode, imm26 (R73, R82). -/
def encJ (o : BitVec 6) (imm26 : Imm26) : Word := o ++ imm26

/-- The word of an instruction, 0 in every bit its operation ignores (R82). -/
def encode (m : OpcodeMap) : Instr → Word
  | .not r1 r2 => encR m.not r1 r2 0 0
  | .xor r1 r2 r3 => encR m.xor r1 r2 r3 0
  | .or r1 r2 r3 => encR m.or r1 r2 r3 0
  | .and r1 r2 r3 => encR m.and r1 r2 r3 0
  | .shl r1 r2 => encR m.shl r1 r2 0 0
  | .shr r1 r2 => encR m.shr r1 r2 0 0
  | .rotl r1 r2 => encR m.rotl r1 r2 0 0
  | .rotr r1 r2 => encR m.rotr r1 r2 0 0
  | .add r1 r2 r3 => encR m.add r1 r2 r3 0
  | .sub r1 r2 r3 => encR m.sub r1 r2 r3 0
  | .inc r1 r2 => encR m.inc r1 r2 0 0
  | .dec r1 r2 => encR m.dec r1 r2 0 0
  | .mul r1 r2 r3 r4 => encR m.mul r1 r2 r3 r4
  | .ori r1 r2 i => encI m.ori r1 r2 i
  | .andi r1 r2 i => encI m.andi r1 r2 i
  | .addi r1 r2 i => encI m.addi r1 r2 i
  | .mov r1 r2 => encR m.mov r1 r2 0 0
  | .sw r1 r2 => encR m.sw r1 r2 0 0
  | .lw r1 r2 => encR m.lw r1 r2 0 0
  | .movh r1 i => encI m.movh r1 0 i
  | .jmp r1 => encR m.jmp r1 0 0 0
  | .jz r1 => encR m.jz r1 0 0 0
  | .jnz r1 => encR m.jnz r1 0 0 0
  | .jmpi j => encJ m.jmpi j
  | .jmpiz j => encJ m.jmpiz j
  | .jmpinz j => encJ m.jmpinz j
  | .read r1 => encR m.read r1 0 0 0
  | .draw r1 r2 => encR m.draw r1 r2 0 0
  | .clear => encR m.clear 0 0 0 0

/-- The bits of a word that an operation looks at: the opcode field and the fields of its format (R73).
Every other bit is ignored (R72). -/
def Op.usedBits : Op → Word
  | .xor | .or | .and | .add | .sub => 0xFFFFF800
  | .not | .shl | .shr | .rotl | .rotr | .inc | .dec | .mov | .sw | .lw | .draw => 0xFFFF0000
  | .mul => 0xFFFFFFC0
  | .ori | .andi | .addi | .jmpi | .jmpiz | .jmpinz => 0xFFFFFFFF
  | .movh => 0xFFE0FFFF
  | .jmp | .jz | .jnz | .read => 0xFFE00000
  | .clear => 0xFC000000

/-- The opcode numbering State.reset starts with. DESIGN CHOICE, unsafe (notes/assumptions/1.md): the spec
leaves `OPC` open and gives no value (R79), and the numbers here, the place of each operation in the source's
table counted from 1, are this model's own. Every statement holds for every map; only State.reset and
decodeTableWord, which must be evaluated on numerals, use this one. -/
def OpcodeMap.assumed : OpcodeMap where
  not := 1
  xor := 2
  or := 3
  and := 4
  shl := 5
  shr := 6
  rotl := 7
  rotr := 8
  add := 9
  sub := 10
  inc := 11
  dec := 12
  mul := 13
  ori := 14
  andi := 15
  addi := 16
  mov := 17
  sw := 18
  lw := 19
  movh := 20
  jmp := 21
  jz := 22
  jnz := 23
  jmpi := 24
  jmpiz := 25
  jmpinz := 26
  read := 27
  draw := 28
  clear := 29

/-- The 32-bit word of an instruction given as a number of which nbits bits are stated; the others are 0. -/
def tableWord (nbits w : Nat) : Word := BitVec.ofNat 32 (w % 2 ^ nbits)

/-- The instruction the decoder reads from the bytes of a table word, laid out in memory order (R54), under
the opcode numbering of State.reset; none where the opcode is undefined. -/
def decodeTableWord (nbits w : Nat) : Option Instr :=
  match decodeBytes OpcodeMap.assumed (bytesOfWord (tableWord nbits w)) with
  | .decoded (.instr i) _ => some i
  | _ => none

end Sys2Proof
end

