-- ==== Sys2Proof/Machine/Params.lean ====
section
/-! DEFINITION. The two sets of parameter values the model names: the reference configuration of
spec/00_scope.md R10, and the configuration State.reset starts with. -/

namespace Sys2Proof

/-- The reference configuration (R10) under an opcode map and a `PC_SEQ_BASE`, which have no reference value. -/
def Config.reference (opc : OpcodeMap) (base : PcSeqBase) : Config where
  opc := opc
  memBytes := 1048576
  misalignedFetch := .byteFetch
  pcSeqBase := base
  zfLw := false
  zfMovh := false
  zfRead := false
  input := .alwaysZero

/-- The parameters State.reset carries: the reference values of R10, with nothing known of the input values
(R42 makes them a free input) and `PC_SEQ_BASE` not told (R10 gives it no value). The opcode numbering is the
model's own. DESIGN CHOICE (notes/assumptions/1.md, 2.md): no statement rests on these values. -/
def Config.atReset : Config :=
  { Config.reference OpcodeMap.assumed .notTold with input := .free [] }

end Sys2Proof
end

