-- ==== Sys2Proof/Machine/State.lean ====
section
/-! DEFINITION. The state of the block (spec/10_state.md R36) as plain data: the register file, the memory, the draw
counter and the run status, then the record of the framebuffer port and what a run is given from outside
(R37). -/

namespace Sys2Proof.Machine

/-- Memory as address and byte pairs in one canonical form (`Memory.wf`). An unlisted address reads 0,
because memory is zero-filled at process start (spec/70_reset_and_hazards.md R231). -/
abbrev Memory := List Host.Cell

/-- The canonical form: addresses strictly rising, no listed byte 0. -/
abbrev Memory.wf (m : Memory) : Prop :=
  m.Pairwise (fun a b => a.1 < b.1) ∧ ∀ c ∈ m, c.2 ≠ 0

/-- No byte is listed at or above the capacity C: memory is the bytes 0 to C-1 (spec/20_memory.md R50). -/
abbrev Memory.below (m : Memory) (c : Nat) : Prop := ∀ cell ∈ m, cell.1 < c

/-- The kind of an access that can fault (spec/20_memory.md R55). -/
inductive AccessKind where
  | fetch | load | store
  deriving DecidableEq, Repr

/-- The run status (spec/10_state.md R35). Every value but `running` is terminal. -/
inductive Status where
  | running
  /-- A word whose opcode no operation has; the word was fetched at pc (spec/60_exceptions.md R201). -/
  | decodeFault (opcode : BitVec 6) (pc : Word)
  /-- An access outside memory, or a misaligned fetch where that faults (R203). -/
  | memFault (kind : AccessKind) (addr : Nat) (pc : Word)
  /-- The host's cancellation was taken (R212). -/
  | cancelled
  deriving DecidableEq, Repr

/-- An event on the framebuffer sink port (spec/10_state.md R41). -/
inductive Event where
  | setPixel (x y : BitVec 8) (rgb : BitVec 24)
  | present
  | clearToBlack
  deriving DecidableEq, Repr

/-- The state. Its first four fields are the architectural state of R36, with slot 0 of the register file kept
(R24). The others are the model's own record of the ports and of the parameters of the run (R37). -/
structure State where
  /-- The register file: 32 slots, slot 30 the PC and slot 31 the flags (R20, R25, R27). Read and written
  through `State.x` and `State.setX` alone. -/
  regs : Vector Word 32
  /-- M, the memory (R50). -/
  mem : Memory
  /-- The draw counter, a natural number (R34). -/
  drawCount : Nat
  /-- The run status (R35). -/
  status : Status
  /-- The events the block has put on the framebuffer sink port, oldest first (R41, R43). -/
  events : List Event
  /-- How many input values READ has taken (R42). -/
  inputCount : Nat
  /-- The host has raised a cancellation request (R44). -/
  cancelRequested : Bool
  /-- At how many step boundaries the raised request was not taken (R212): the argument of the free choice. -/
  cancelPolls : Nat
  /-- The parameters of the run (R37), changed by no step. -/
  config : Config
  deriving DecidableEq, Repr

/-- Why step has no next state. -/
inductive Fault where
  /-- Raised by `step` alone, in a terminal status (R35: never left, no further step). The record is that
  status. Safe: the spec gives no step here. -/
  | stopped (status : Status)
  deriving DecidableEq, Repr

/-- Why an instruction has no meaning in the model. -/
inductive Refusal where
  /-- Raised by an arm of exec whose instruction has no meaning yet. Safe. No arm raises it now. -/
  | notModelled (mnemonic : String)
  deriving DecidableEq, Repr

/-- The state at process start under the parameters c with memory m (spec/10_state.md R38, spec/70_reset_and_hazards.md
R230): every slot 0, so PC = 0 and Z is clear; drawCount 0; Running; nothing on a port yet. -/
def State.resetWith (c : Config) (m : Memory) : State where
  regs := Vector.replicate 32 0
  mem := m
  drawCount := 0
  status := .running
  events := []
  inputCount := 0
  cancelRequested := false
  cancelPolls := 0
  config := c

/-- The machine right after reset, with no program image loaded: memory is all zero (R231). -/
def State.reset : State := State.resetWith Config.atReset []

end Sys2Proof.Machine
end

