-- ==== Sys2Proof/Machine/Operands.lean ====
section
/-! DEFINITION. Every operand form: a register slot, the immediates of spec/30_encoding.md R75 to R78, the byte address of
a word index (spec/20_memory.md R51) and the pixel fields of DRAW (spec/43_io.md R182). -/

namespace Sys2Proof.Machine

/-- Reading register slot i: 0 for slot 0, whatever it stores (spec/10_state.md R21, R22). -/
def State.x (s : State) (i : Reg) : Word := if i = 0#5 then 0#32 else s.regs[i.toNat]

/-- The PC, register slot 30: the byte address of the instruction being executed (R25). -/
def State.pc (s : State) : Word := s.x Reg.pc

/-- ORI and ANDI's immediate: zero-extended (R75). -/
def zext32 (imm : Imm16) : Word := imm.setWidth 32

/-- ADDI's immediate: sign-extended, two's complement (R76, spec/00_scope.md R12). -/
def sext32 (imm : Imm16) : Word := imm.signExtend 32

/-- MOVH's immediate: imm16 in bits 31..16, bits 15..0 zero (R77). -/
def upper32 (imm : Imm16) : Word := BitVec.ofNat 32 (imm.toNat * 2 ^ 16)

/-- The target of JMPI, JMPIZ and JMPINZ: imm26 × 4, absolute, never sign-extended (R78). -/
def target26 (imm : Imm26) : Word := BitVec.ofNat 32 (imm.toNat * 4)

/-- The byte address of the word index W: the exact integer 4 × W, not reduced modulo 2^32 (R51). -/
def byteAddress (w : Word) : Nat := 4 * w.toNat

/-- DRAW's x coordinate, bits 7..0 of the coordinate word (R182). -/
def pixelX (c : Word) : BitVec 8 := c.extractLsb' 0 8

/-- DRAW's y coordinate, bits 15..8 of the coordinate word (R182). -/
def pixelY (c : Word) : BitVec 8 := c.extractLsb' 8 8

/-- DRAW's colour 0xRRGGBB, bits 23..0 of the colour word (R182). -/
def pixelRgb (k : Word) : BitVec 24 := k.extractLsb' 0 24

end Sys2Proof.Machine
end

