-- ==== Sys2Proof/Machine/Ops.lean ====
section
/-! DEFINITION. The operations every meaning is built from: writing a register slot, the byte array and its
big-endian word transfers (spec/20_memory.md), the input and framebuffer ports (spec/10_state.md R41 to R43), the next PC
(spec/42_control.md R161, R162, R172), taking a fault and a cancellation (spec/60_exceptions.md), fetching, and loading an image. -/

namespace Sys2Proof.Machine

/-! ### Registers -/

/-- Writing v to register slot i: discarded for slot 0 (R22). -/
def State.setX (s : State) (i : Reg) (v : Word) : State :=
  if i = 0#5 then s else { s with regs := s.regs.set i.toNat v }

/-! ### Memory -/

/-- The byte at address a, 0 where none is listed (R231). -/
def Memory.byte : Memory → Nat → Byte
  | [], _ => 0
  | (k, b) :: m, a => if a = k then b else Memory.byte m a

/-- The memory without a listed byte at address a, which then reads 0. -/
def Memory.drop (m : Memory) (a : Nat) : Memory := m.filter fun c => c.1 != a

/-- The memory with the byte b listed at address a, before the first higher address. -/
def Memory.put : Memory → Nat → Byte → Memory
  | [], a, b => [(a, b)]
  | (k, v) :: m, a, b => if a < k then (a, b) :: (k, v) :: m else (k, v) :: Memory.put m a b

/-- M[a] <- b, in canonical form: the byte 0 is not listed. -/
def Memory.setByte (m : Memory) (a : Nat) (b : Byte) : Memory :=
  if b = 0 then m.drop a else (m.drop a).put a b

/-- The big-endian word of the bytes a to a+3 (R52), with no bound check. -/
def Memory.word (m : Memory) (a : Nat) : Word :=
  wordOfBytes (m.byte a) (m.byte (a + 1)) (m.byte (a + 2)) (m.byte (a + 3))

/-- The bytes bs stored at a and up. -/
def Memory.setBytes (m : Memory) (a : Nat) : List Byte → Memory
  | [] => m
  | b :: bs => Memory.setBytes (m.setByte a b) (a + 1) bs

/-- The word v stored big-endian at the bytes a to a+3 (R53), with no bound check. -/
def Memory.setWord (m : Memory) (a : Nat) (v : Word) : Memory := m.setBytes a (bytesOfWord v)

/-- Memory after the loader: the image at byte 0 and up, 0 beyond it (spec/70_reset_and_hazards.md R231). -/
def Memory.ofImage (image : List Byte) : Memory := Memory.setBytes [] 0 image

/-- The byte at address a of the state's memory. -/
def State.byte (s : State) (a : Nat) : Byte := s.mem.byte a

/-- Whether the 4 bytes at a are inside memory: a + 4 ≤ C (R55). -/
def State.inRange (s : State) (a : Nat) : Bool := a + 4 ≤ s.config.memBytes

/-- `MemRead(a, 4)` for an access of this kind: the word, or the memory fault the check raises (R52, R55). -/
def State.memRead (s : State) (kind : AccessKind) (a : Nat) : Except Status Word :=
  if s.inRange a then .ok (s.mem.word a) else .error (.memFault kind a s.pc)

/-- `MemWrite(a, 4, v)`: the state with the word stored, or the memory fault the check raises (R53, R55). -/
def State.memWrite (s : State) (a : Nat) (v : Word) : Except Status State :=
  if s.inRange a then .ok { s with mem := s.mem.setWord a v } else .error (.memFault .store a s.pc)

/-- The fetch at the PC (spec/20_memory.md R54, R57): first the alignment check where `MISALIGNED_FETCH` is Fault, then
the bound check (spec/60_exceptions.md R207). -/
def State.fetch (s : State) : Except Status Word :=
  if s.pc.toNat % 4 ≠ 0 ∧ s.config.misalignedFetch = .fault then
    .error (.memFault .fetch s.pc.toNat s.pc)
  else s.memRead .fetch s.pc.toNat

/-! ### Ports -/

/-- The value call number n of the input source returns (R42). -/
def InputSource.value (src : InputSource) (n : Nat) : Word :=
  match src with
  | .alwaysZero => 0
  | .free vs => vs[n]?.getD (Config.freeInput n)

/-- The value the next call of the input source returns. -/
def State.input (s : State) : Word := InputSource.value s.config.input s.inputCount

/-- The state after one call of the input source: one value is taken (R42). -/
def State.tookInput (s : State) : State := { s with inputCount := s.inputCount + 1 }

/-- `emit E` (R43): the event is appended to the framebuffer event sequence. -/
def State.emit (s : State) (e : Event) : State := { s with events := s.events ++ [e] }

/-- drawCount <- drawCount + 1 (R34). -/
def State.countDraw (s : State) : State := { s with drawCount := s.drawCount + 1 }

/-- The next PC written at the end of a step (spec/42_control.md R160): a write of slot 30. -/
def State.setPc (s : State) (v : Word) : State := s.setX Reg.pc v

/-- What the sequential PC update adds 4 to (R161, R172), from the fetch address and the value slot 30 holds
after the instruction's own writes. The two differ only where the instruction wrote slot 30. -/
def seqBase (base : PcSeqBase) (pc after : Word) : Word :=
  match base with
  | .fetchPC => pc
  | .r30AfterExecute => after
  | .notTold => if after = pc ∨ Config.untoldBaseIsFetchPC = true then pc else after

/-- The end of a step that takes no jump: next PC = u32(base + 4) (R161). Here t is the state after the
instruction's own writes and pc the fetch address. -/
def State.advance (t : State) (pc : Word) : State :=
  t.setPc (seqBase t.config.pcSeqBase pc t.pc + 4)

/-- The end of a jump's step: the target if it is taken, else the sequential PC (R160 to R162). -/
def State.jump (s : State) (taken : Bool) (target : Word) : State :=
  if taken then s.setPc target else s.advance s.pc

/-! ### Faults and cancellation -/

/-- TAKING A FAULT (spec/60_exceptions.md R204, R208): the fault record goes into status and nothing else changes;
control goes nowhere, and slot 30 still holds the faulting pc. There is no return from it: the block has no
handler and no return instruction (R200, R209). -/
def State.takeFault (s : State) (record : Status) : State := { s with status := record }

/-- The cancellation step (R212): status becomes Cancelled and nothing else changes. -/
def State.cancel (s : State) : State := { s with status := .cancelled }

/-- The host raises a cancellation request between steps (spec/10_state.md R44). No step does this. -/
def State.requestCancel (s : State) : State := { s with cancelRequested := true }

/-- Whether the block takes the cancellation at this step boundary: never without a request, and at a
moment nothing fixes with one (R212). -/
def State.takesCancel (s : State) : Bool := s.cancelRequested && Config.cancelTaken s.cancelPolls

/-- The state as the instruction step starts: a request not taken here has passed one more boundary. -/
def State.polled (s : State) : State :=
  if s.cancelRequested then { s with cancelPolls := s.cancelPolls + 1 } else s

/-! ### Process start -/

/-- Process start with a program image (spec/70_reset_and_hazards.md R230, R231): refused where the image is larger than
memory. -/
def State.boot (c : Config) (image : List Byte) : Option State :=
  if imageFits c image then some (State.resetWith c (Memory.ofImage image)) else none

end Sys2Proof.Machine
end

