-- ==== Sys2Proof/Machine/Flags.lean ====
section
/-! DEFINITION. The one flag, Z: bit 0 of register slot 31 (spec/10_state.md R27). There is no carry, overflow or sign
flag (spec/40_alu.md R117). -/

namespace Sys2Proof.Machine

/-- The zero flag, bit 0 of slot 31; bits 31..1 do not affect it (R27, R29). -/
def State.z (s : State) : Bool := (s.x Reg.flags).getLsbD 0

/-- What `setZ(v)` writes to the whole of slot 31: 1 for a result 0, else 0 (R28). -/
def flagsWord (v : Word) : Word := if v = 0#32 then 1#32 else 0#32

/-- `setZ(v)` (R28): the whole of slot 31 is written, so bits 31..1 become 0. -/
def State.setZ (s : State) (v : Word) : State := s.setX Reg.flags (flagsWord v)

/-- `if on then setZ(v)`: the update of LW, MOVH and READ, which a parameter turns on (R30). -/
def State.setZIf (s : State) (on : Bool) (v : Word) : State := if on then s.setZ v else s

/-- The end of every one-destination instruction that always updates Z (spec/40_alu.md R100): the result to r1, then Z
from the result itself, then the sequential PC (spec/00_scope.md R14). -/
def State.aluResult (s : State) (r1 : Reg) (res : Word) : State :=
  ((s.setX r1 res).setZ res).advance s.pc

/-- The end of MOV, LW, MOVH and READ: the value to r1, Z where the parameter says so, then the sequential PC. -/
def State.moveResult (s : State) (r1 : Reg) (v : Word) (zf : Bool) : State :=
  ((s.setX r1 v).setZIf zf v).advance s.pc

end Sys2Proof.Machine
end

