-- ==== Sys2Proof/Machine/Arith.lean ====
section
/-! DEFINITION. ADD, SUB, INC, DEC, MUL and ADDI (spec/40_alu.md R109 to R113, R116): exact results modulo 2^32, no
carry, overflow or borrow kept, no trap (R117). -/

namespace Sys2Proof.Machine

/-- ADD: u32(x[r2] + x[r3]) (R109). -/
def execAdd (r1 r2 r3 : Reg) (s : State) : Host.Outcome State Fault Refusal :=
  .next (s.aluResult r1 (s.x r2 + s.x r3))

/-- SUB: u32(x[r2] - x[r3]) (R110). -/
def execSub (r1 r2 r3 : Reg) (s : State) : Host.Outcome State Fault Refusal :=
  .next (s.aluResult r1 (s.x r2 - s.x r3))

/-- INC: u32(x[r2] + 1) (R111). -/
def execInc (r1 r2 : Reg) (s : State) : Host.Outcome State Fault Refusal :=
  .next (s.aluResult r1 (s.x r2 + 1))

/-- DEC: u32(x[r2] - 1) (R112). -/
def execDec (r1 r2 : Reg) (s : State) : Host.Outcome State Fault Refusal :=
  .next (s.aluResult r1 (s.x r2 - 1))

/-- ADDI: u32(x[r2] + sext_32(imm16)) (R116). -/
def execAddi (r1 r2 : Reg) (imm : Imm16) (s : State) : Host.Outcome State Fault Refusal :=
  .next (s.aluResult r1 (s.x r2 + sext32 imm))

/-- The exact 64-bit product of two unsigned words (R113). -/
def product (a b : Word) : Nat := a.toNat * b.toNat

/-- MUL: the low word to r1, then the high word to r2, then Z from the low word (R113). With r1 = r2 the
second write wins. -/
def execMul (r1 r2 r3 r4 : Reg) (s : State) : Host.Outcome State Fault Refusal :=
  let p := product (s.x r3) (s.x r4)
  let lo := BitVec.ofNat 32 p
  let hi := BitVec.ofNat 32 (p / 2 ^ 32)
  .next ((((s.setX r1 lo).setX r2 hi).setZ lo).advance s.pc)

end Sys2Proof.Machine
end

