-- ==== Sys2Proof/Machine/Io.lean ====
section
/-! DEFINITION. READ, DRAW, CLEAR (spec/43_io.md R181 to R183), the only instructions that use a port other than memory
(R180). What the sink does with an event is outside the block (spec/10_state.md R41). -/

namespace Sys2Proof.Machine

/-- READ: one value of the input source to r1, taken even when r1 = 0, and Z from it if `ZF_READ` (R181). -/
def execRead (r1 : Reg) (s : State) : Host.Outcome State Fault Refusal :=
  .next (s.tookInput.moveResult r1 s.input s.config.zfRead)

/-- DRAW: a SetPixel event, the draw counter incremented, then a Present event with every 256th DRAW (R182). -/
def execDraw (r1 r2 : Reg) (s : State) : Host.Outcome State Fault Refusal :=
  let c := s.x r1
  let t := (s.emit (.setPixel (pixelX c) (pixelY c) (pixelRgb (s.x r2)))).countDraw
  .next ((if t.drawCount % 256 = 0 then t.emit .present else t).advance s.pc)

/-- CLEAR: ClearToBlack, then Present; the draw counter is not changed (R183). -/
def execClear (s : State) : Host.Outcome State Fault Refusal :=
  .next (((s.emit .clearToBlack).emit .present).advance s.pc)

end Sys2Proof.Machine
end

