-- ==== Sys2Proof/Machine/Jumps.lean ====
section
/-! DEFINITION. JMP, JZ, JNZ, JMPI, JMPIZ, JMPINZ (spec/42_control.md R164 to R169). A target is not checked when the jump
executes (R163); a jump changes no register but slot 30 and no flag (R173). -/

namespace Sys2Proof.Machine

/-- JMP: to the byte address in r1 (R164). -/
def execJmp (r1 : Reg) (s : State) : Host.Outcome State Fault Refusal :=
  .next (s.jump true (s.x r1))

/-- JZ: to the byte address in r1 if Z = 1 (R165). -/
def execJz (r1 : Reg) (s : State) : Host.Outcome State Fault Refusal :=
  .next (s.jump s.z (s.x r1))

/-- JNZ: to the byte address in r1 if Z = 0 (R166). -/
def execJnz (r1 : Reg) (s : State) : Host.Outcome State Fault Refusal :=
  .next (s.jump (!s.z) (s.x r1))

/-- JMPI: to imm26 × 4 (R167). -/
def execJmpi (imm : Imm26) (s : State) : Host.Outcome State Fault Refusal :=
  .next (s.jump true (target26 imm))

/-- JMPIZ: to imm26 × 4 if Z = 1 (R168). -/
def execJmpiz (imm : Imm26) (s : State) : Host.Outcome State Fault Refusal :=
  .next (s.jump s.z (target26 imm))

/-- JMPINZ: to imm26 × 4 if Z = 0 (R169). -/
def execJmpinz (imm : Imm26) (s : State) : Host.Outcome State Fault Refusal :=
  .next (s.jump (!s.z) (target26 imm))

end Sys2Proof.Machine
end

