-- ==== Sys2Proof/Machine/Logic.lean ====
section
/-! DEFINITION. NOT, XOR, OR, AND (spec/40_alu.md R101 to R104) and the immediate forms ORI, ANDI (R114, R115). Sources
are read before the destination is written (R100). -/

namespace Sys2Proof.Machine

/-- NOT: bitwise complement (R101). -/
def execNot (r1 r2 : Reg) (s : State) : Host.Outcome State Fault Refusal :=
  .next (s.aluResult r1 (~~~ s.x r2))

/-- XOR: bitwise exclusive or (R102). -/
def execXor (r1 r2 r3 : Reg) (s : State) : Host.Outcome State Fault Refusal :=
  .next (s.aluResult r1 (s.x r2 ^^^ s.x r3))

/-- OR: bitwise inclusive or (R103). -/
def execOr (r1 r2 r3 : Reg) (s : State) : Host.Outcome State Fault Refusal :=
  .next (s.aluResult r1 (s.x r2 ||| s.x r3))

/-- AND: bitwise and (R104). -/
def execAnd (r1 r2 r3 : Reg) (s : State) : Host.Outcome State Fault Refusal :=
  .next (s.aluResult r1 (s.x r2 &&& s.x r3))

/-- ORI: or with a zero-extended immediate (R114). -/
def execOri (r1 r2 : Reg) (imm : Imm16) (s : State) : Host.Outcome State Fault Refusal :=
  .next (s.aluResult r1 (s.x r2 ||| zext32 imm))

/-- ANDI: and with a zero-extended immediate, so bits 31..16 of the result are 0 (R115). -/
def execAndi (r1 r2 : Reg) (imm : Imm16) (s : State) : Host.Outcome State Fault Refusal :=
  .next (s.aluResult r1 (s.x r2 &&& zext32 imm))

end Sys2Proof.Machine
end

