-- ==== Sys2Proof/Machine/Move.lean ====
section
/-! DEFINITION. MOV, SW, LW, MOVH (spec/41_data_movement.md R141 to R144). LW and SW make one 4-byte access at byte
address 4 × (word index) (R140) and take the memory fault of spec/20_memory.md R55 when it is out of range. -/

namespace Sys2Proof.Machine

/-- MOV: x[r1] <- x[r2], no flag update (R141). -/
def execMov (r1 r2 : Reg) (s : State) : Host.Outcome State Fault Refusal :=
  .next (s.moveResult r1 (s.x r2) false)

/-- SW: x[r2] stored big-endian at word index x[r1]; a faulting SW writes no byte (R142). -/
def execSw (r1 r2 : Reg) (s : State) : Host.Outcome State Fault Refusal :=
  match s.memWrite (byteAddress (s.x r1)) (s.x r2) with
  | .ok t => .next (t.advance s.pc)
  | .error record => .next (s.takeFault record)

/-- LW: the word at word index x[r2] to r1, and Z from it if `ZF_LW`; a faulting LW writes no register, and
a load to r0 can still fault (R143). -/
def execLw (r1 r2 : Reg) (s : State) : Host.Outcome State Fault Refusal :=
  match s.memRead .load (byteAddress (s.x r2)) with
  | .ok v => .next (s.moveResult r1 v s.config.zfLw)
  | .error record => .next (s.takeFault record)

/-- MOVH: imm16 × 2^16 to r1, whatever it held, and Z from it if `ZF_MOVH` (R144). -/
def execMovh (r1 : Reg) (imm : Imm16) (s : State) : Host.Outcome State Fault Refusal :=
  .next (s.moveResult r1 (upper32 imm) s.config.zfMovh)

end Sys2Proof.Machine
end

