-- ==== Sys2Proof/Machine/Shift.lean ====
section
/-! DEFINITION. SHL, SHR, ROTL, ROTR, each by exactly one bit (spec/40_alu.md R105 to R108). -/

namespace Sys2Proof.Machine

/-- SHL: bit 31 of the source is lost and bit 0 of the result is 0 (R105). -/
def execShl (r1 r2 : Reg) (s : State) : Host.Outcome State Fault Refusal :=
  .next (s.aluResult r1 (s.x r2 <<< 1))

/-- SHR: a logical shift; bit 0 of the source is lost and bit 31 of the result is 0 (R106). -/
def execShr (r1 r2 : Reg) (s : State) : Host.Outcome State Fault Refusal :=
  .next (s.aluResult r1 (s.x r2 >>> 1))

/-- ROTL: v[30:0] ++ v[31] (R107). -/
def execRotl (r1 r2 : Reg) (s : State) : Host.Outcome State Fault Refusal :=
  .next (s.aluResult r1 ((s.x r2).rotateLeft 1))

/-- ROTR: v[0] ++ v[31:1] (R108). -/
def execRotr (r1 r2 : Reg) (s : State) : Host.Outcome State Fault Refusal :=
  .next (s.aluResult r1 ((s.x r2).rotateRight 1))

end Sys2Proof.Machine
end

