-- ==== Sys2Proof/Machine/Dispatch.lean ====
section
/-! DEFINITION. The meaning of each instruction, the next-PC update included (spec/42_control.md R160), one arm per
constructor of Instr in the order of spec/opcode_table.json. -/

namespace Sys2Proof.Machine

/-- Executing one decoded instruction: operand reads, memory or port access, register writes, setZ, next PC
(spec/00_scope.md R14). -/
def exec (i : Instr) (s : State) : Host.Outcome State Fault Refusal :=
  match i with
  | .not r1 r2 => Sys2Proof.Machine.execNot r1 r2 s
  | .xor r1 r2 r3 => Sys2Proof.Machine.execXor r1 r2 r3 s
  | .or r1 r2 r3 => Sys2Proof.Machine.execOr r1 r2 r3 s
  | .and r1 r2 r3 => Sys2Proof.Machine.execAnd r1 r2 r3 s
  | .shl r1 r2 => Sys2Proof.Machine.execShl r1 r2 s
  | .shr r1 r2 => Sys2Proof.Machine.execShr r1 r2 s
  | .rotl r1 r2 => Sys2Proof.Machine.execRotl r1 r2 s
  | .rotr r1 r2 => Sys2Proof.Machine.execRotr r1 r2 s
  | .add r1 r2 r3 => Sys2Proof.Machine.execAdd r1 r2 r3 s
  | .sub r1 r2 r3 => Sys2Proof.Machine.execSub r1 r2 r3 s
  | .inc r1 r2 => Sys2Proof.Machine.execInc r1 r2 s
  | .dec r1 r2 => Sys2Proof.Machine.execDec r1 r2 s
  | .mul r1 r2 r3 r4 => Sys2Proof.Machine.execMul r1 r2 r3 r4 s
  | .ori r1 r2 imm => Sys2Proof.Machine.execOri r1 r2 imm s
  | .andi r1 r2 imm => Sys2Proof.Machine.execAndi r1 r2 imm s
  | .addi r1 r2 imm => Sys2Proof.Machine.execAddi r1 r2 imm s
  | .mov r1 r2 => Sys2Proof.Machine.execMov r1 r2 s
  | .sw r1 r2 => Sys2Proof.Machine.execSw r1 r2 s
  | .lw r1 r2 => Sys2Proof.Machine.execLw r1 r2 s
  | .movh r1 imm => Sys2Proof.Machine.execMovh r1 imm s
  | .jmp r1 => Sys2Proof.Machine.execJmp r1 s
  | .jz r1 => Sys2Proof.Machine.execJz r1 s
  | .jnz r1 => Sys2Proof.Machine.execJnz r1 s
  | .jmpi imm => Sys2Proof.Machine.execJmpi imm s
  | .jmpiz imm => Sys2Proof.Machine.execJmpiz imm s
  | .jmpinz imm => Sys2Proof.Machine.execJmpinz imm s
  | .read r1 => Sys2Proof.Machine.execRead r1 s
  | .draw r1 r2 => Sys2Proof.Machine.execDraw r1 r2 s
  | .clear => Sys2Proof.Machine.execClear s

end Sys2Proof.Machine
end

