-- ==== Sys2Proof/Machine/Step.lean ====
section
/-! DEFINITION. One step of the block (spec/42_control.md R160): fetch, decode, execute. It is defined only while the
status is Running (spec/10_state.md R35); a raised cancellation may be taken instead of an instruction (spec/60_exceptions.md R212). -/

namespace Sys2Proof.Machine

/-- The instruction step: the checks in the order of R207, a failed one taking its fault (R201, R203). -/
def instrStep (s : State) : Host.Outcome State Fault Refusal :=
  match s.fetch with
  | .error record => .next (s.takeFault record)
  | .ok w =>
    match decode s.config.opc w with
    | .undefinedOpcode opcode => .next (s.takeFault (.decodeFault opcode s.pc))
    | .instr i => exec i s

/-- One step. A terminal status has none (R35). -/
def step (s : State) : Host.Outcome State Fault Refusal :=
  match s.status with
  | .running => if s.takesCancel then .next s.cancel else instrStep s.polled
  | record => .fault (.stopped record)

/-- The state with a table word stored, big-endian, at the PC, where step fetches (R54). -/
def State.withFetchWord (s : State) (nbits w : Nat) : State :=
  { s with mem := s.mem.setWord s.pc.toNat (tableWord nbits w) }

end Sys2Proof.Machine
end

