-- ==== Sys2Proof/Machine/Assembler.lean ====
section
/-! DEFINITION. The spec's assembler (spec/30_encoding.md R84 to R87): register names, the instruction of a source line,
and the sequence each pseudo-instruction stands for. It is no part of the machine; it says which
instructions a program text stands for. Mnemonics are the operations themselves (Op). -/

namespace Sys2Proof.Machine

/-- The mnemonic of an operation, as spec/opcode_table.json spells it (R79). -/
def mnemonic : Op → String
  | .not => "NOT"
  | .xor => "XOR"
  | .or => "OR"
  | .and => "AND"
  | .shl => "SHL"
  | .shr => "SHR"
  | .rotl => "ROTL"
  | .rotr => "ROTR"
  | .add => "ADD"
  | .sub => "SUB"
  | .inc => "INC"
  | .dec => "DEC"
  | .mul => "MUL"
  | .ori => "ORI"
  | .andi => "ANDI"
  | .addi => "ADDI"
  | .mov => "MOV"
  | .sw => "SW"
  | .lw => "LW"
  | .movh => "MOVH"
  | .jmp => "JMP"
  | .jz => "JZ"
  | .jnz => "JNZ"
  | .jmpi => "JMPI"
  | .jmpiz => "JMPIZ"
  | .jmpinz => "JMPINZ"
  | .read => "READ"
  | .draw => "DRAW"
  | .clear => "CLEAR"

/-- The register a name stands for: r0 to r31, and the aliases zero, pc and flags (R86). -/
def registerNamed (name : String) : Option Reg :=
  if name = "zero" then some 0
  else if name = "pc" then some Reg.pc
  else if name = "flags" then some Reg.flags
  else ((List.range 32).find? fun n => name = "r" ++ toString n).map (BitVec.ofNat 5)

/-- The register field of an operand. -/
def operandReg : SrcOperand → Reg
  | .reg n => BitVec.ofNat 5 n
  | .num _ | .label _ => 0

/-- The imm16 field of an operand: a negative number is stored as its two's complement (R84). -/
def operandImm16 : SrcOperand → Imm16
  | .reg _ | .label _ => 0
  | .num v => BitVec.ofInt 16 v

/-- The imm26 field of a jump target written as a byte address: target / 4 (R84). -/
def operandTarget : SrcOperand → Imm26
  | .reg _ | .label _ => 0
  | .num v => BitVec.ofInt 26 (v / 4)

/-- The seven fields a source line gives, the operands taken in field order (R84, R85). -/
def lineFields (l : SrcLine) : Fields :=
  let reg (k : Nat) : Reg := operandReg (l.operands.getD k (.num 0))
  let imm (k : Nat) : SrcOperand := l.operands.getD k (.num 0)
  { opcode := 0
    r1 := reg 0
    r2 := reg 1
    r3 := reg 2
    r4 := reg 3
    imm16 := operandImm16 (imm (if l.op = .movh then 1 else 2))
    imm26 := operandTarget (imm 0) }

/-- The instruction a source line stands for; none where the assembler refuses it (R84). -/
def assemble (l : SrcLine) : Option Instr :=
  if checkSource l then some (l.op.instr (lineFields l)) else none

/-- The sequence a pseudo-instruction stands for (R87). -/
def expand : Pseudo → List Instr
  | .nop => [.mov 0 0]
  | .li rd imm => [.movh rd (imm.extractLsb' 16 16), .ori rd rd (imm.extractLsb' 0 16)]
  | .cmp ra rb => [.sub 0 ra rb]
  | .tst ra => [.or 0 ra 0]
  | .setz => [.xor 0 0 0]
  | .clrz => [.mov Reg.flags 0]
  | .neg rd rs => [.not rd rs, .inc rd rd]
  | .j target => [.jmpi target]
  | .halt self => [.jmpi self]

/-- How many words a statement takes. -/
def itemWords : SrcItem → Nat
  | .line _ => 1
  | .pseudo p => (expand p).length

/-- The byte address of each label of a program whose first word stands at addr: the address of the instruction
it marks (R84). -/
def labelTable (addr : Nat) : List SrcStmt → List (String × Nat)
  | [] => []
  | stmt :: rest => stmt.labels.map (fun name => (name, addr)) ++ labelTable (addr + 4 * itemWords stmt.item) rest

/-- An operand with a label replaced by its byte address; none for a label the table does not have. -/
def resolveOperand (table : List (String × Nat)) : SrcOperand → Option SrcOperand
  | .label name => (table.lookup name).map fun (a : Nat) => .num a
  | o => some o

/-- The operands of a line with every label replaced. -/
def resolveOperands (table : List (String × Nat)) : List SrcOperand → Option (List SrcOperand)
  | [] => some []
  | o :: os =>
    match resolveOperand table o, resolveOperands table os with
    | some o', some os' => some (o' :: os')
    | _, _ => none

/-- A line with the labels of its jump target replaced. DESIGN CHOICE (notes/assumptions/12.md): R84 gives a label
only as the target of the JMPI family and does not say whether one may stand where an imm16 does; here a label
at any other place stays, and `checkSource` refuses the line. -/
def resolveLine (table : List (String × Nat)) (l : SrcLine) : Option SrcLine :=
  if l.op ∈ [Op.jmpi, .jmpiz, .jmpinz] then (resolveOperands table l.operands).map fun os => ⟨l.op, os⟩
  else some l

/-- The instructions of a statement at byte address addr. HALT jumps to its own address, which must be below 2^28
(R87). -/
def assembleItem (table : List (String × Nat)) (addr : Nat) : SrcItem → Option (List Instr)
  | .line l => ((resolveLine table l).bind assemble).map fun i => [i]
  | .pseudo (.halt _) => if addr < 2 ^ 28 then some (expand (.halt (BitVec.ofNat 26 (addr / 4)))) else none
  | .pseudo p => some (expand p)

/-- The instructions of a program whose first word stands at addr. -/
def assembleFrom (table : List (String × Nat)) (addr : Nat) : List SrcStmt → Option (List Instr)
  | [] => some []
  | stmt :: rest =>
    match assembleItem table addr stmt.item, assembleFrom table (addr + 4 * itemWords stmt.item) rest with
    | some is, some more => some (is ++ more)
    | _, _ => none

/-- The instructions of a program to be loaded at byte 0; none where a statement is refused or a label marks two
statements. -/
def assembleProgram (program : List SrcStmt) : Option (List Instr) :=
  if ((labelTable 0 program).map (·.1)).Nodup then assembleFrom (labelTable 0 program) 0 program else none

/-- The image of a program: the bytes of its words, big-endian, in order (R82; spec/70_reset_and_hazards.md R231). -/
def imageOf (m : OpcodeMap) (is : List Instr) : List Byte := is.flatMap fun i => bytesOfWord (encode m i)

end Sys2Proof.Machine
end

