-- ==== Sys2Proof/Safety.lean ====
section
/-! DEFINITION. The terms the statements use: what an instruction may change, written from the spec's rules in
the spec's integer arithmetic and through reads of registers and bytes; the state invariant; and runs. -/

namespace Sys2Proof.Machine

/-! ### What each instruction names (spec/30_encoding.md R74, spec/10_state.md R30) -/

/-- The registers an instruction has as destinations (R74): MUL has two, and SW, DRAW, CLEAR and the jumps none. -/
def dests : Instr → List Reg
  | .not r1 _ | .shl r1 _ | .shr r1 _ | .rotl r1 _ | .rotr r1 _ | .inc r1 _ | .dec r1 _ => [r1]
  | .xor r1 _ _ | .or r1 _ _ | .and r1 _ _ | .add r1 _ _ | .sub r1 _ _ => [r1]
  | .mul r1 r2 _ _ => [r1, r2]
  | .ori r1 _ _ | .andi r1 _ _ | .addi r1 _ _ => [r1]
  | .mov r1 _ | .lw r1 _ | .movh r1 _ | .read r1 => [r1]
  | .sw .. | .jmp .. | .jz .. | .jnz .. | .jmpi .. | .jmpiz .. | .jmpinz .. | .draw .. | .clear => []

/-- Whether an operation updates the zero flag under the parameters c (R30). -/
def updatesZ (c : Config) : Op → Bool
  | .not | .xor | .or | .and | .shl | .shr | .rotl | .rotr => true
  | .add | .sub | .inc | .dec | .mul | .ori | .andi | .addi => true
  | .lw => c.zfLw
  | .movh => c.zfMovh
  | .read => c.zfRead
  | .mov | .sw | .jmp | .jz | .jnz | .jmpi | .jmpiz | .jmpinz | .draw | .clear => false

/-! ### What stays -/

/-- Every byte of memory reads as before. -/
def SameMemory (s t : State) : Prop := ∀ a, t.byte a = s.byte a

/-- Every register slot reads as before. -/
def SameRegisters (s t : State) : Prop := ∀ i, t.x i = s.x i

/-- The draw counter, the framebuffer events and the count of input values are as before. -/
structure SamePorts (s t : State) : Prop where
  drawCount : t.drawCount = s.drawCount
  events : t.events = s.events
  inputCount : t.inputCount = s.inputCount

/-- The state with other parameters: the same machine state on another implementation (spec/10_state.md R37). -/
def State.withConfig (s : State) (c : Config) : State := { s with config := c }

/-- The run status, the host's request and the parameters are as before. -/
structure SameRun (s t : State) : Prop where
  status : t.status = s.status
  cancelRequested : t.cancelRequested = s.cancelRequested
  cancelPolls : t.cancelPolls = s.cancelPolls
  config : t.config = s.config

/-- Status becomes record and nothing else changes (spec/60_exceptions.md R204, R212). -/
structure OnlyStatus (s t : State) (record : Status) : Prop where
  status : t.status = record
  registers : SameRegisters s t
  memory : SameMemory s t
  ports : SamePorts s t
  cancelRequested : t.cancelRequested = s.cancelRequested
  cancelPolls : t.cancelPolls = s.cancelPolls
  config : t.config = s.config

/-! ### What an instruction does -/

/-- The PC after a step that takes no jump (spec/42_control.md R161, R172). written is the value the instruction itself
wrote to r30, if it did. -/
def SequentialPc (s t : State) (written : Option Word) : Prop :=
  match written with
  | none => t.pc = s.pc + 4
  | some v =>
    match s.config.pcSeqBase with
    | .fetchPC => t.pc = s.pc + 4
    | .r30AfterExecute => t.pc = v + 4
    | .notTold => t.pc = s.pc + 4 ∨ t.pc = v + 4

/-- The integer an instruction leaves in r30 with its own writes, where r30 is a destination: the result of its rule
(spec/40_alu.md R101 to R116, spec/41_data_movement.md R141 to R144, spec/43_io.md R181); for MUL the high word, written second,
where r2 is r30. 0 for an instruction without a destination. -/
def writtenToPc (s : State) : Instr → Nat
  | .not _ r2 => 0xFFFFFFFF - (s.x r2).toNat
  | .xor _ r2 r3 => (s.x r2).toNat ^^^ (s.x r3).toNat
  | .or _ r2 r3 => (s.x r2).toNat ||| (s.x r3).toNat
  | .and _ r2 r3 => (s.x r2).toNat &&& (s.x r3).toNat
  | .shl _ r2 => (s.x r2).toNat * 2
  | .shr _ r2 => (s.x r2).toNat / 2
  | .rotl _ r2 => (s.x r2).toNat * 2 % 2 ^ 32 + (s.x r2).toNat / 2 ^ 31
  | .rotr _ r2 => (s.x r2).toNat / 2 + (s.x r2).toNat % 2 * 2 ^ 31
  | .add _ r2 r3 => (s.x r2).toNat + (s.x r3).toNat
  | .sub _ r2 r3 => (s.x r2).toNat + 2 ^ 32 - (s.x r3).toNat
  | .inc _ r2 => (s.x r2).toNat + 1
  | .dec _ r2 => (s.x r2).toNat + 2 ^ 32 - 1
  | .mul _ r2 r3 r4 =>
      if r2 = Reg.pc then (s.x r3).toNat * (s.x r4).toNat / 2 ^ 32 else (s.x r3).toNat * (s.x r4).toNat
  | .ori _ r2 imm => (s.x r2).toNat ||| imm.toNat
  | .andi _ r2 imm => (s.x r2).toNat &&& imm.toNat
  | .addi _ r2 imm => (s.x r2).toNat + (imm.toNat + (if 0x8000 ≤ imm.toNat then 0xFFFF0000 else 0))
  | .mov _ r2 => (s.x r2).toNat
  | .lw _ r2 =>
      (s.byte (4 * (s.x r2).toNat)).toNat * 2 ^ 24 + (s.byte (4 * (s.x r2).toNat + 1)).toNat * 2 ^ 16 +
        (s.byte (4 * (s.x r2).toNat + 2)).toNat * 2 ^ 8 + (s.byte (4 * (s.x r2).toNat + 3)).toNat
  | .movh _ imm => imm.toNat * 2 ^ 16
  | .read _ => s.input.toNat
  | .sw .. | .jmp .. | .jz .. | .jnz .. | .jmpi .. | .jmpiz .. | .jmpinz .. | .draw .. | .clear => 0

/-- Whether an instruction is a jump that is taken (spec/42_control.md R164 to R169). -/
def takesJump (s : State) : Instr → Bool
  | .jmp _ | .jmpi _ => true
  | .jz _ | .jmpiz _ => (s.x Reg.flags).toNat % 2 = 1
  | .jnz _ | .jmpinz _ => (s.x Reg.flags).toNat % 2 = 0
  | .not .. | .xor .. | .or .. | .and .. | .shl .. | .shr .. | .rotl .. | .rotr .. => false
  | .add .. | .sub .. | .inc .. | .dec .. | .mul .. | .ori .. | .andi .. | .addi .. => false
  | .mov .. | .sw .. | .lw .. | .movh .. | .read .. | .draw .. | .clear => false

/-- The instruction does from s what it did to reach t when the parameters are changed in this way: the same next
state, the changed parameters apart. -/
def SameUnder (i : Instr) (s t : State) (change : Config → Config) : Prop :=
  exec i (s.withConfig (change s.config)) = .next (t.withConfig (change t.config))

/-- The effect of a one-destination instruction that always updates Z (spec/40_alu.md R100), for the integer result
res: u32(res) to r1, Z from u32(res) in the whole of slot 31, every other register, all memory and every port
as before, and the sequential PC. -/
structure AluEffect (s t : State) (r1 : Reg) (res : Nat) : Prop where
  result : r1 ≠ 0#5 → r1 ≠ Reg.pc → r1 ≠ Reg.flags → (t.x r1).toNat = res % 2 ^ 32
  slot0 : t.x 0#5 = 0#32
  flags : t.x Reg.flags = if res % 2 ^ 32 = 0 then 1#32 else 0#32
  others : ∀ i, i ≠ r1 → i ≠ Reg.pc → i ≠ Reg.flags → t.x i = s.x i
  nextPc : SequentialPc s t (if r1 = Reg.pc then some (BitVec.ofNat 32 res) else none)
  memory : SameMemory s t
  ports : SamePorts s t
  run : SameRun s t

/-- The registers and the PC after a one-destination move of v to r1 that updates Z only if zf: MOV, LW, MOVH,
READ (spec/41_data_movement.md R140, spec/43_io.md R181). -/
structure MoveRegisters (s t : State) (r1 : Reg) (v : Word) (zf : Bool) : Prop where
  result : r1 ≠ 0#5 → r1 ≠ Reg.pc → (r1 = Reg.flags → zf = false) → t.x r1 = v
  slot0 : t.x 0#5 = 0#32
  flagsOn : zf = true → t.x Reg.flags = if v = 0#32 then 1#32 else 0#32
  flagsOff : zf = false → r1 ≠ Reg.flags → t.x Reg.flags = s.x Reg.flags
  others : ∀ i, i ≠ r1 → i ≠ Reg.pc → i ≠ Reg.flags → t.x i = s.x i
  nextPc : SequentialPc s t (if r1 = Reg.pc then some v else none)

/-- The effect of a jump (spec/42_control.md R161, R162, R173): the PC and nothing else. -/
structure JumpEffect (s t : State) (taken : Bool) (target : Word) : Prop where
  nextPc : t.pc = if taken then target else s.pc + 4
  others : ∀ i, i ≠ Reg.pc → t.x i = s.x i
  memory : SameMemory s t
  ports : SamePorts s t
  run : SameRun s t

/-- The PC advances by 4 and every other register is as before. -/
structure OnlyPcAdvances (s t : State) : Prop where
  nextPc : t.pc = s.pc + 4
  others : ∀ i, i ≠ Reg.pc → t.x i = s.x i

/-- The instruction's word is `OPC(op) : operands` (spec/30_encoding.md R83), and it decodes to the instruction. -/
def EncodesAs (i : Instr) (op : Op) (operands : Nat) : Prop :=
  ∀ m : OpcodeMap, (encode m i).toNat = (m.code op).toNat * 2 ^ 26 + operands ∧
    (m.wf → decode m (encode m i) = .instr i)

/-! ### Events and runs -/

/-- How many Present events a sequence has. -/
def presents (es : List Event) : Nat := es.countP (· == .present)

/-- How many ClearToBlack events a sequence has. -/
def blacks (es : List Event) : Nat := es.countP (· == .clearToBlack)

/-- How many SetPixel events a sequence has. -/
def pixels (es : List Event) : Nat := es.countP fun e => e != .present && e != .clearToBlack

/-- How many instructions of a sequence have this operation. -/
def countOp (op : Op) (is : List Instr) : Nat := is.countP fun i => i.op == op

/-- The instructions executed one after the other; none where one of them faults or stops. -/
def runInstrs : List Instr → State → Option State
  | [], s => some s
  | i :: is, s =>
    match exec i s with
    | .next t => if t.status = .running then runInstrs is t else none
    | _ => none

/-- The end of a program (spec/42_control.md R171): the word at the PC is a JMPI whose target is its own address. -/
def AtHalt (s : State) : Prop :=
  ∃ w imm, s.fetch = .ok w ∧ decode s.config.opc w = .instr (.jmpi imm) ∧ target26 imm = s.pc

/-! ### The invariant -/

/-- What a fault record says of the state it was taken in (spec/60_exceptions.md R203, R204): the recorded pc is the PC,
which the faulting step left alone; a load or store fault is out of range, and a fetch fault records the PC
as its address. -/
def FaultHeld (s : State) : Prop :=
  match s.status with
  | .running | .cancelled => True
  | .decodeFault opcode p => p = s.pc ∧ ∀ op, s.config.opc.code op ≠ opcode
  | .memFault .fetch a p => p = s.pc ∧ a = s.pc.toNat
  | .memFault _ a p => p = s.pc ∧ ¬ a + 4 ≤ s.config.memBytes

/-- The invariant every step keeps. -/
structure State.Inv (s : State) : Prop where
  /-- Slot 0 stores 0 (spec/10_state.md R24). -/
  slot0 : s.regs[0] = 0
  /-- Memory is in its canonical form. -/
  memWf : s.mem.wf
  /-- No byte is listed outside memory (spec/20_memory.md R50). -/
  memBelow : s.mem.below s.config.memBytes
  /-- One SetPixel for each DRAW counted (spec/43_io.md R182). -/
  pixelCount : pixels s.events = s.drawCount
  /-- A Present with every 256th DRAW and with every CLEAR, and no other (R184). -/
  presentCount : presents s.events = s.drawCount / 256 + blacks s.events
  faultHeld : FaultHeld s

end Sys2Proof.Machine
end

