-- ==== Sys2Proof/Certificates/Slice0/Obligations.lean ====
section
/-! DEFINITION. The statements about the model, each for every state and every value of the open parameters that
it does not name. They use the terms of Sys2Proof/Safety.lean. The rules are those of spec/. -/

open Sys2Proof Sys2Proof.Machine

/-! ### Encoding -/

/-- Under an injective opcode map, decoding the word of an instruction gives the instruction back, with every
operand at every value (R71, R74, R80, R82). -/
def Obligations.DecodeInvertsEncode : Prop :=
  ∀ m : OpcodeMap, m.wf → ∀ i : Instr, decode m (encode m i) = .instr i

/-- R71: the seven fields, each as the quotient its bit positions make it. -/
def Obligations.DecoderCutsFixedFields : Prop :=
  ∀ w : Word, (fields w).opcode.toNat = w.toNat / 2 ^ 26 ∧ (fields w).r1.toNat = w.toNat / 2 ^ 21 % 2 ^ 5 ∧
    (fields w).r2.toNat = w.toNat / 2 ^ 16 % 2 ^ 5 ∧ (fields w).r3.toNat = w.toNat / 2 ^ 11 % 2 ^ 5 ∧
    (fields w).r4.toNat = w.toNat / 2 ^ 6 % 2 ^ 5 ∧ (fields w).imm16.toNat = w.toNat % 2 ^ 16 ∧
    (fields w).imm26.toNat = w.toNat % 2 ^ 26

/-- R72, R73: two words that agree on the bits their operation uses decode alike. -/
def Obligations.IgnoredBitsNeverMatter : Prop :=
  ∀ (m : OpcodeMap) (w w' : Word) (op : Op), dispatch m (fields w).opcode = some op →
    w &&& op.usedBits = w' &&& op.usedBits → decode m w' = decode m w

/-- R80, R81: a word is rejected exactly when its opcode field is no operation's value, and 35 of the 64 values
are; every other word is the instruction of the operation its opcode names. -/
def Obligations.UndefinedOpcodesAreRejected : Prop :=
  ∀ m : OpcodeMap, m.wf →
    (∀ w op, (fields w).opcode = m.code op → decode m w = .instr (op.instr (fields w))) ∧
    (∀ w, (∀ op, (fields w).opcode ≠ m.code op) → decode m w = .undefinedOpcode (fields w).opcode) ∧
    (List.finRange 64).countP (fun k => Op.all.all fun op => m.code op != BitVec.ofFin k) = 35

/-- Words written out from the spec's own examples, `OPC(op) : P` for any injective map, decode to the
instructions they stand for; the CLEAR word has every ignored bit set (R83, R72). -/
def Obligations.ExampleWordsDecode : Prop :=
  ∀ m : OpcodeMap, m.wf →
    decode m (m.add ++ 0x0221800#26) = .instr (.add 1 2 3) ∧
    decode m (m.rotl ++ 0x0A50000#26) = .instr (.rotl 5 5) ∧
    decode m (m.mul ++ 0x0221900#26) = .instr (.mul 1 2 3 4) ∧
    decode m (m.addi ++ 0x022FFFF#26) = .instr (.addi 1 2 0xFFFF) ∧
    decode m (m.movh ++ 0x0201234#26) = .instr (.movh 1 0x1234) ∧
    decode m (m.jmp ++ 0x0E00000#26) = .instr (.jmp 7) ∧
    decode m (m.jmpi ++ 0x0000010#26) = .instr (.jmpi 0x10) ∧
    decode m (m.clear ++ 0x3FFFFFF#26) = .instr .clear

/-! ### Registers, the flag, immediates, memory -/

/-- R21, R22: slot 0 reads 0 and a write to it does nothing; a write to any other slot stores u32(n), and no
other slot, byte or port changes. -/
def Obligations.RegisterFileReadsAndWrites : Prop :=
  ∀ (s : State) (i : Reg) (n : Nat), s.x 0#5 = 0#32 ∧ (i = 0#5 → s.setX i (BitVec.ofNat 32 n) = s) ∧
    (i ≠ 0#5 → ((s.setX i (BitVec.ofNat 32 n)).x i).toNat = n % 2 ^ 32) ∧
    (∀ j, j ≠ i → (s.setX i (BitVec.ofNat 32 n)).x j = s.x j) ∧
    SameMemory s (s.setX i (BitVec.ofNat 32 n)) ∧ SamePorts s (s.setX i (BitVec.ofNat 32 n)) ∧
    SameRun s (s.setX i (BitVec.ofNat 32 n))

/-- R28: setZ writes the whole of slot 31, 1 for 0 and else 0, and nothing else; Z is its bit 0 (R27). -/
def Obligations.SetZWritesAllOfSlot31 : Prop :=
  ∀ (s : State) (v : Word), (s.setZ v).x Reg.flags = (if v = 0#32 then 1#32 else 0#32) ∧
    ((s.setZ v).z = true ↔ v = 0) ∧ (∀ i, i ≠ Reg.flags → (s.setZ v).x i = s.x i) ∧
    SameMemory s (s.setZ v) ∧ SamePorts s (s.setZ v) ∧ SameRun s (s.setZ v)

/-- R75 to R78: the four immediate forms as integers, and ADDI's as a signed number (R12). -/
def Obligations.ImmediateForms : Prop :=
  (∀ imm : Imm16, (zext32 imm).toNat = imm.toNat ∧
    (sext32 imm).toNat = imm.toNat + (if 0x8000 ≤ imm.toNat then 0xFFFF0000 else 0) ∧
    (sext32 imm).toInt = imm.toInt ∧ (upper32 imm).toNat = imm.toNat * 2 ^ 16) ∧
  ∀ imm : Imm26, (target26 imm).toNat = imm.toNat * 4

/-- R52, R53, R55: a word transfer in range is big-endian, the byte at the lowest address the most
significant, and stores four bytes and no other; out of range it is the memory fault of its kind. -/
def Obligations.WordTransfersAreBigEndian : Prop :=
  ∀ (s : State) (a : Nat) (kind : AccessKind) (v : Word),
    (a + 4 ≤ s.config.memBytes →
      (∃ w, s.memRead kind a = .ok w ∧
        w.toNat = (s.byte a).toNat * 2 ^ 24 + (s.byte (a + 1)).toNat * 2 ^ 16 +
          (s.byte (a + 2)).toNat * 2 ^ 8 + (s.byte (a + 3)).toNat) ∧
      ∃ t, s.memWrite a v = .ok t ∧ (t.byte a).toNat = v.toNat / 2 ^ 24 ∧
        (t.byte (a + 1)).toNat = v.toNat / 2 ^ 16 % 256 ∧ (t.byte (a + 2)).toNat = v.toNat / 2 ^ 8 % 256 ∧
        (t.byte (a + 3)).toNat = v.toNat % 256 ∧ (∀ b, b < a ∨ a + 4 ≤ b → t.byte b = s.byte b) ∧
        SameRegisters s t ∧ SamePorts s t ∧ SameRun s t) ∧
    (¬ a + 4 ≤ s.config.memBytes →
      s.memRead kind a = .error (.memFault kind a s.pc) ∧ s.memWrite a v = .error (.memFault .store a s.pc))

/-! ### ALU instructions -/

/-- R101 to R104: NOT, XOR, OR and AND, their words, results, flags and frames. -/
def Obligations.LogicInstructions : Prop :=
  ∀ (r1 r2 r3 : Reg) (s : State),
    (EncodesAs (.not r1 r2) .not (r1.toNat * 2 ^ 21 + r2.toNat * 2 ^ 16) ∧
      ∃ t, exec (.not r1 r2) s = .next t ∧ AluEffect s t r1 (0xFFFFFFFF - (s.x r2).toNat) ∧
        (t.z = true ↔ s.x r2 = 0xFFFFFFFF)) ∧
    (EncodesAs (.xor r1 r2 r3) .xor (r1.toNat * 2 ^ 21 + r2.toNat * 2 ^ 16 + r3.toNat * 2 ^ 11) ∧
      ∃ t, exec (.xor r1 r2 r3) s = .next t ∧ AluEffect s t r1 ((s.x r2).toNat ^^^ (s.x r3).toNat) ∧
        (t.z = true ↔ s.x r2 = s.x r3)) ∧
    (EncodesAs (.or r1 r2 r3) .or (r1.toNat * 2 ^ 21 + r2.toNat * 2 ^ 16 + r3.toNat * 2 ^ 11) ∧
      ∃ t, exec (.or r1 r2 r3) s = .next t ∧ AluEffect s t r1 ((s.x r2).toNat ||| (s.x r3).toNat) ∧
        (t.z = true ↔ s.x r2 = 0 ∧ s.x r3 = 0)) ∧
    (EncodesAs (.and r1 r2 r3) .and (r1.toNat * 2 ^ 21 + r2.toNat * 2 ^ 16 + r3.toNat * 2 ^ 11) ∧
      ∃ t, exec (.and r1 r2 r3) s = .next t ∧ AluEffect s t r1 ((s.x r2).toNat &&& (s.x r3).toNat) ∧
        (t.z = true ↔ (s.x r2).toNat &&& (s.x r3).toNat = 0))

/-- R105 to R108: SHL, SHR, ROTL and ROTR by one bit, as the spec's integer expressions. -/
def Obligations.ShiftsAndRotatesByOne : Prop :=
  ∀ (r1 r2 : Reg) (s : State),
    (EncodesAs (.shl r1 r2) .shl (r1.toNat * 2 ^ 21 + r2.toNat * 2 ^ 16) ∧
      ∃ t, exec (.shl r1 r2) s = .next t ∧ AluEffect s t r1 ((s.x r2).toNat * 2) ∧
        (t.z = true ↔ (s.x r2).toNat % 2 ^ 31 = 0)) ∧
    (EncodesAs (.shr r1 r2) .shr (r1.toNat * 2 ^ 21 + r2.toNat * 2 ^ 16) ∧
      ∃ t, exec (.shr r1 r2) s = .next t ∧ AluEffect s t r1 ((s.x r2).toNat / 2) ∧
        (t.z = true ↔ (s.x r2).toNat ≤ 1)) ∧
    (EncodesAs (.rotl r1 r2) .rotl (r1.toNat * 2 ^ 21 + r2.toNat * 2 ^ 16) ∧
      ∃ t, exec (.rotl r1 r2) s = .next t ∧
        AluEffect s t r1 ((s.x r2).toNat * 2 % 2 ^ 32 + (s.x r2).toNat / 2 ^ 31) ∧
        (t.z = true ↔ s.x r2 = 0)) ∧
    (EncodesAs (.rotr r1 r2) .rotr (r1.toNat * 2 ^ 21 + r2.toNat * 2 ^ 16) ∧
      ∃ t, exec (.rotr r1 r2) s = .next t ∧
        AluEffect s t r1 ((s.x r2).toNat / 2 + (s.x r2).toNat % 2 * 2 ^ 31) ∧
        (t.z = true ↔ s.x r2 = 0))

/-- R109 to R112: ADD, SUB, INC and DEC modulo 2^32. -/
def Obligations.AddSubIncDec : Prop :=
  ∀ (r1 r2 r3 : Reg) (s : State),
    (EncodesAs (.add r1 r2 r3) .add (r1.toNat * 2 ^ 21 + r2.toNat * 2 ^ 16 + r3.toNat * 2 ^ 11) ∧
      ∃ t, exec (.add r1 r2 r3) s = .next t ∧ AluEffect s t r1 ((s.x r2).toNat + (s.x r3).toNat) ∧
        (t.z = true ↔ ((s.x r2).toNat + (s.x r3).toNat) % 2 ^ 32 = 0)) ∧
    (EncodesAs (.sub r1 r2 r3) .sub (r1.toNat * 2 ^ 21 + r2.toNat * 2 ^ 16 + r3.toNat * 2 ^ 11) ∧
      ∃ t, exec (.sub r1 r2 r3) s = .next t ∧
        AluEffect s t r1 ((s.x r2).toNat + 2 ^ 32 - (s.x r3).toNat) ∧ (t.z = true ↔ s.x r2 = s.x r3)) ∧
    (EncodesAs (.inc r1 r2) .inc (r1.toNat * 2 ^ 21 + r2.toNat * 2 ^ 16) ∧
      ∃ t, exec (.inc r1 r2) s = .next t ∧ AluEffect s t r1 ((s.x r2).toNat + 1) ∧
        (t.z = true ↔ s.x r2 = 0xFFFFFFFF)) ∧
    (EncodesAs (.dec r1 r2) .dec (r1.toNat * 2 ^ 21 + r2.toNat * 2 ^ 16) ∧
      ∃ t, exec (.dec r1 r2) s = .next t ∧ AluEffect s t r1 ((s.x r2).toNat + 2 ^ 32 - 1) ∧
        (t.z = true ↔ s.x r2 = 1))

/-- R113: MUL, the exact unsigned product in two words, the low one written first, Z from the low word. -/
def Obligations.MultiplyToTwoWords : Prop :=
  ∀ (r1 r2 r3 r4 : Reg) (s : State),
    EncodesAs (.mul r1 r2 r3 r4) .mul
      (r1.toNat * 2 ^ 21 + r2.toNat * 2 ^ 16 + r3.toNat * 2 ^ 11 + r4.toNat * 2 ^ 6) ∧
    ∀ p, p = (s.x r3).toNat * (s.x r4).toNat → p < 2 ^ 64 ∧
      ∃ t, exec (.mul r1 r2 r3 r4) s = .next t ∧
        (r1 ≠ 0#5 → r1 ≠ r2 → r1 ≠ Reg.pc → r1 ≠ Reg.flags → (t.x r1).toNat = p % 2 ^ 32) ∧
        (r2 ≠ 0#5 → r2 ≠ Reg.pc → r2 ≠ Reg.flags → (t.x r2).toNat = p / 2 ^ 32) ∧
        t.x 0#5 = 0#32 ∧ t.x Reg.flags = (if p % 2 ^ 32 = 0 then 1#32 else 0#32) ∧
        (∀ i, i ≠ r1 → i ≠ r2 → i ≠ Reg.pc → i ≠ Reg.flags → t.x i = s.x i) ∧
        SequentialPc s t (if r2 = Reg.pc then some (BitVec.ofNat 32 (p / 2 ^ 32))
          else if r1 = Reg.pc then some (BitVec.ofNat 32 p) else none) ∧
        SameMemory s t ∧ SamePorts s t ∧ SameRun s t

/-- R114, R115: ORI and ANDI with the immediate zero-extended. -/
def Obligations.OrAndImmediate : Prop :=
  ∀ (r1 r2 : Reg) (imm : Imm16) (s : State),
    (EncodesAs (.ori r1 r2 imm) .ori (r1.toNat * 2 ^ 21 + r2.toNat * 2 ^ 16 + imm.toNat) ∧
      ∃ t, exec (.ori r1 r2 imm) s = .next t ∧ AluEffect s t r1 ((s.x r2).toNat ||| imm.toNat) ∧
        (t.z = true ↔ s.x r2 = 0 ∧ imm = 0)) ∧
    (EncodesAs (.andi r1 r2 imm) .andi (r1.toNat * 2 ^ 21 + r2.toNat * 2 ^ 16 + imm.toNat) ∧
      ∃ t, exec (.andi r1 r2 imm) s = .next t ∧ AluEffect s t r1 ((s.x r2).toNat &&& imm.toNat) ∧
        (t.z = true ↔ (s.x r2).toNat % 2 ^ 16 &&& imm.toNat = 0))

/-- R116: ADDI adds the sign-extended immediate modulo 2^32. -/
def Obligations.AddImmediate : Prop :=
  ∀ (r1 r2 : Reg) (imm : Imm16) (s : State),
    EncodesAs (.addi r1 r2 imm) .addi (r1.toNat * 2 ^ 21 + r2.toNat * 2 ^ 16 + imm.toNat) ∧
    ∀ res, res = (s.x r2).toNat + (imm.toNat + (if 0x8000 ≤ imm.toNat then 0xFFFF0000 else 0)) →
      ∃ t, exec (.addi r1 r2 imm) s = .next t ∧ AluEffect s t r1 res ∧ (t.z = true ↔ res % 2 ^ 32 = 0)

/-! ### Data movement -/

/-- R141: MOV copies a register and updates no flag. -/
def Obligations.MoveRegister : Prop :=
  ∀ (r1 r2 : Reg) (s : State),
    EncodesAs (.mov r1 r2) .mov (r1.toNat * 2 ^ 21 + r2.toNat * 2 ^ 16) ∧
    ∃ t, exec (.mov r1 r2) s = .next t ∧ MoveRegisters s t r1 (s.x r2) false ∧
      SameMemory s t ∧ SamePorts s t ∧ SameRun s t

/-- R142: SW stores four bytes big-endian at byte address 4 × x[r1] and nothing else; out of range it takes
MemFault(Store, a, pc) and writes no byte. -/
def Obligations.StoreWord : Prop :=
  ∀ (r1 r2 : Reg) (s : State) (a : Nat), a = byteAddress (s.x r1) →
    EncodesAs (.sw r1 r2) .sw (r1.toNat * 2 ^ 21 + r2.toNat * 2 ^ 16) ∧ a = 4 * (s.x r1).toNat ∧
    (a + 4 ≤ s.config.memBytes →
      ∃ t, exec (.sw r1 r2) s = .next t ∧ (t.byte a).toNat = (s.x r2).toNat / 2 ^ 24 ∧
        (t.byte (a + 1)).toNat = (s.x r2).toNat / 2 ^ 16 % 256 ∧
        (t.byte (a + 2)).toNat = (s.x r2).toNat / 2 ^ 8 % 256 ∧
        (t.byte (a + 3)).toNat = (s.x r2).toNat % 256 ∧
        (∀ b, b < a ∨ a + 4 ≤ b → t.byte b = s.byte b) ∧ OnlyPcAdvances s t ∧ SamePorts s t ∧ SameRun s t) ∧
    (¬ a + 4 ≤ s.config.memBytes →
      ∃ t, exec (.sw r1 r2) s = .next t ∧ OnlyStatus s t (.memFault .store a s.pc))

/-- R143: LW loads the big-endian word at byte address 4 × x[r2], updates Z only if `ZF_LW`, and out of range
takes MemFault(Load, a, pc) and writes no register. -/
def Obligations.LoadWord : Prop :=
  ∀ (r1 r2 : Reg) (s : State) (a : Nat), a = 4 * (s.x r2).toNat →
    EncodesAs (.lw r1 r2) .lw (r1.toNat * 2 ^ 21 + r2.toNat * 2 ^ 16) ∧
    (a + 4 ≤ s.config.memBytes →
      ∃ t v, exec (.lw r1 r2) s = .next t ∧
        v.toNat = (s.byte a).toNat * 2 ^ 24 + (s.byte (a + 1)).toNat * 2 ^ 16 +
          (s.byte (a + 2)).toNat * 2 ^ 8 + (s.byte (a + 3)).toNat ∧
        MoveRegisters s t r1 v s.config.zfLw ∧ SameMemory s t ∧ SamePorts s t ∧ SameRun s t) ∧
    (¬ a + 4 ≤ s.config.memBytes →
      ∃ t, exec (.lw r1 r2) s = .next t ∧ OnlyStatus s t (.memFault .load a s.pc))

/-- R144: MOVH writes imm16 × 2^16, and updates Z only if `ZF_MOVH`. -/
def Obligations.MoveUpperImmediate : Prop :=
  ∀ (r1 : Reg) (imm : Imm16) (s : State),
    EncodesAs (.movh r1 imm) .movh (r1.toNat * 2 ^ 21 + imm.toNat) ∧
    ∃ t v, exec (.movh r1 imm) s = .next t ∧ v.toNat = imm.toNat * 2 ^ 16 ∧
      MoveRegisters s t r1 v s.config.zfMovh ∧ SameMemory s t ∧ SamePorts s t ∧ SameRun s t

/-- R145: a load at the word index of a store, with that word and that index unchanged between, gives the
value stored. -/
def Obligations.StoreThenLoadRoundTrips : Prop :=
  ∀ (ra rb rc : Reg) (s : State), byteAddress (s.x ra) + 4 ≤ s.config.memBytes →
    ∃ t, exec (.sw ra rb) s = .next t ∧ ∀ u : State, u.x ra = s.x ra → u.config = s.config →
      (∀ k, k < 4 → u.byte (byteAddress (s.x ra) + k) = t.byte (byteAddress (s.x ra) + k)) →
      ∃ v, exec (.lw rc ra) u = .next v ∧ v.status = u.status ∧
        (rc ≠ 0#5 → rc ≠ Reg.pc → (rc = Reg.flags → s.config.zfLw = false) → v.x rc = s.x rb)

/-- R63, R238: a store to the very next instruction's address is what the next step runs. And the step that fetched
an SW has the effect of that SW even where the SW overwrites its own word; a fetch from that address after it
sees the word stored. -/
def Obligations.StoreIsSeenByNextFetch : Prop :=
  ∀ (r1 r2 : Reg) (s : State), s.status = .running → s.cancelRequested = false →
    byteAddress (s.x r1) + 4 ≤ s.config.memBytes →
    (∀ i, decode s.config.opc (s.x r2) = .instr i → byteAddress (s.x r1) = (s.pc + 4).toNat →
      ∃ t, exec (.sw r1 r2) s = .next t ∧ step t = exec i t) ∧
    ∀ w, s.fetch = .ok w → decode s.config.opc w = .instr (.sw r1 r2) →
      ∃ t, step s = .next t ∧ exec (.sw r1 r2) s = .next t ∧ t.status = .running ∧ OnlyPcAdvances s t ∧
        (byteAddress (s.x r1) = s.pc.toNat → ∀ u : State, u.pc = s.pc → u.config = s.config → u.mem = t.mem →
          u.fetch = .ok (s.x r2))

/-! ### Jumps -/

/-- R164 to R166: JMP, JZ and JNZ to the byte address in r1; Z is bit 0 of slot 31 and nothing but the PC
changes. -/
def Obligations.RegisterTargetJumps : Prop :=
  ∀ (r1 : Reg) (s : State),
    (EncodesAs (.jmp r1) .jmp (r1.toNat * 2 ^ 21) ∧
      ∃ t, exec (.jmp r1) s = .next t ∧ JumpEffect s t true (s.x r1)) ∧
    (EncodesAs (.jz r1) .jz (r1.toNat * 2 ^ 21) ∧
      ∃ t, exec (.jz r1) s = .next t ∧
        JumpEffect s t (decide ((s.x Reg.flags).toNat % 2 = 1)) (s.x r1)) ∧
    (EncodesAs (.jnz r1) .jnz (r1.toNat * 2 ^ 21) ∧
      ∃ t, exec (.jnz r1) s = .next t ∧
        JumpEffect s t (decide ((s.x Reg.flags).toNat % 2 = 0)) (s.x r1))

/-- R167 to R169: JMPI, JMPIZ and JMPINZ to imm26 × 4. -/
def Obligations.ImmediateTargetJumps : Prop :=
  ∀ (imm : Imm26) (s : State) (target : Word), target.toNat = imm.toNat * 4 →
    (EncodesAs (.jmpi imm) .jmpi imm.toNat ∧
      ∃ t, exec (.jmpi imm) s = .next t ∧ JumpEffect s t true target) ∧
    (EncodesAs (.jmpiz imm) .jmpiz imm.toNat ∧
      ∃ t, exec (.jmpiz imm) s = .next t ∧
        JumpEffect s t (decide ((s.x Reg.flags).toNat % 2 = 1)) target) ∧
    (EncodesAs (.jmpinz imm) .jmpinz imm.toNat ∧
      ∃ t, exec (.jmpinz imm) s = .next t ∧
        JumpEffect s t (decide ((s.x Reg.flags).toNat % 2 = 0)) target)

/-- R163: a jump always completes; a target outside memory, or misaligned where that faults, is the fetch fault
of the next step, with the PC at the target. -/
def Obligations.TargetsAreCheckedAtTheirFetch : Prop :=
  ∀ (i : Instr) (s : State), i.op ∈ [Op.jmp, .jz, .jnz, .jmpi, .jmpiz, .jmpinz] →
    ∃ t, exec i s = .next t ∧ t.status = s.status ∧
      (s.status = .running → s.cancelRequested = false →
        (¬ t.pc.toNat + 4 ≤ s.config.memBytes ∨
          (t.pc.toNat % 4 ≠ 0 ∧ s.config.misalignedFetch = .fault)) →
        ∃ u, step t = .next u ∧ OnlyStatus t u (.memFault .fetch t.pc.toNat t.pc))

/-! ### Input and output -/

/-- R181: READ takes exactly one input value, also for r0, and writes it to r1; the value is the input source's,
0 under the reference policy and the given values in turn under a given sequence. -/
def Obligations.ReadTakesOneInput : Prop :=
  ∀ (r1 : Reg) (s : State),
    EncodesAs (.read r1) .read (r1.toNat * 2 ^ 21) ∧
    (∃ t, exec (.read r1) s = .next t ∧ MoveRegisters s t r1 s.input s.config.zfRead ∧
      t.inputCount = s.inputCount + 1 ∧ t.drawCount = s.drawCount ∧ t.events = s.events ∧
      SameMemory s t ∧ SameRun s t) ∧
    (s.config.input = .alwaysZero → s.input = 0) ∧
    ∀ vs, s.config.input = .free vs → ∀ h : s.inputCount < vs.length, s.input = vs[s.inputCount]

/-- R182: DRAW emits SetPixel with x, y and rgb from the bits the rule names, counts, and emits Present exactly
with every 256th DRAW. -/
def Obligations.DrawPlotsOnePixel : Prop :=
  ∀ (r1 r2 : Reg) (s : State),
    EncodesAs (.draw r1 r2) .draw (r1.toNat * 2 ^ 21 + r2.toNat * 2 ^ 16) ∧
    ∃ t xp yp rgb, exec (.draw r1 r2) s = .next t ∧
      t.events = s.events ++ Event.setPixel xp yp rgb ::
        (if (s.drawCount + 1) % 256 = 0 then [Event.present] else []) ∧
      xp.toNat = (s.x r1).toNat % 256 ∧ yp.toNat = (s.x r1).toNat / 256 % 256 ∧
      rgb.toNat = (s.x r2).toNat % 2 ^ 24 ∧ t.drawCount = s.drawCount + 1 ∧
      t.inputCount = s.inputCount ∧ OnlyPcAdvances s t ∧ SameMemory s t ∧ SameRun s t

/-- R183: CLEAR emits ClearToBlack and then Present, and leaves the draw counter; its 26 operand bits may hold
anything. -/
def Obligations.ClearPresentsAtOnce : Prop :=
  (∀ (m : OpcodeMap) (p : BitVec 26), m.wf → decode m (m.clear ++ p) = .instr .clear) ∧
  EncodesAs .clear .clear 0 ∧
  ∀ s : State, ∃ t, exec .clear s = .next t ∧ t.events = s.events ++ [Event.clearToBlack, Event.present] ∧
    t.drawCount = s.drawCount ∧ t.inputCount = s.inputCount ∧ OnlyPcAdvances s t ∧ SameMemory s t ∧
    SameRun s t

/-- R184: over a sequence of instructions that all complete, k of them DRAWs, from drawCount = n, the DRAWs emit
(n + k) / 256 - n / 256 Present events and each CLEAR one more. -/
def Obligations.PresentsAreCounted : Prop :=
  ∀ (is : List Instr) (s t : State), runInstrs is s = some t →
    t.drawCount = s.drawCount + countOp .draw is ∧
    presents t.events = presents s.events +
      ((s.drawCount + countOp .draw is) / 256 - s.drawCount / 256) + countOp .clear is

/-! ### Every instruction -/

/-- Only DRAW counts, only READ takes an input value, only DRAW and CLEAR emit, only SW stores, no instruction
touches the parameters or the host's request, and events are only appended (R34, R40, R42, R43). -/
def Obligations.OnlyNamedInstructionsActOutside : Prop :=
  ∀ (i : Instr) (s t : State), exec i s = .next t →
    t.drawCount = s.drawCount + (if i.op = .draw then 1 else 0) ∧
    t.inputCount = s.inputCount + (if i.op = .read then 1 else 0) ∧
    (∃ es, t.events = s.events ++ es ∧ (i.op ∉ [Op.draw, .clear] → es = [])) ∧
    (i.op ≠ .sw → SameMemory s t) ∧ t.config = s.config ∧ t.cancelRequested = s.cancelRequested ∧
    t.cancelPolls = s.cancelPolls

/-- A register that is no destination, not the PC, and not the flags register of an instruction that updates Z
keeps its value; an instruction that completes and updates Z leaves 0 or 1 in slot 31 (R30, R74). -/
def Obligations.OnlyDestinationsChange : Prop :=
  ∀ (i : Instr) (s t : State), exec i s = .next t →
    (∀ j, j ∉ dests i → j ≠ Reg.pc → (j = Reg.flags → updatesZ s.config i.op = false) → t.x j = s.x j) ∧
    (s.status = .running → t.status = .running → updatesZ s.config i.op = true →
      t.x Reg.flags = 0 ∨ t.x Reg.flags = 1)

/-- From an aligned PC (R26), only JMP, JZ, JNZ and an instruction that writes r30 can leave a misaligned one. And
every instruction that is no taken jump and does not write r30 ends at u32(pc + 4) (R161), which wraps from
0xFFFFFFFC to 0. -/
def Obligations.MisalignedPcHasThreeSources : Prop :=
  (∀ (i : Instr) (s t : State), exec i s = .next t → s.pc.toNat % 4 = 0 →
    i.op ∉ [Op.jmp, .jz, .jnz] → Reg.pc ∉ dests i → t.pc.toNat % 4 = 0) ∧
  ∀ (i : Instr) (s : State), s.status = .running → Reg.pc ∉ dests i → takesJump s i = false →
    ∃ t, exec i s = .next t ∧ (i.op ∉ [Op.sw, .lw] → t.status = .running) ∧
      (t.status = .running → t.pc.toNat = (s.pc.toNat + 4) % 2 ^ 32 ∧ (s.pc = 0xFFFFFFFC → t.pc = 0))

/-- R172, R161: every non-control instruction with r30 as a destination, where it completes (LW may fault instead),
ends at u32(pc + 4) under FetchPC, the value written being lost, and at u32(written value + 4) under
R30AfterExecute. Where the parameter is not told it is one of the two, which is the model's choice
(notes/assumptions/4.md). -/
def Obligations.WritesToThePcSlot : Prop :=
  ∀ (i : Instr) (s : State), Reg.pc ∈ dests i → s.status = .running →
    ∃ t, exec i s = .next t ∧ (i.op ≠ .lw → t.status = .running) ∧
      (t.status = .running →
        (s.config.pcSeqBase = .fetchPC → t.pc.toNat = (s.pc.toNat + 4) % 2 ^ 32) ∧
        (s.config.pcSeqBase = .r30AfterExecute → t.pc.toNat = (writtenToPc s i + 4) % 2 ^ 32) ∧
        (s.config.pcSeqBase = .notTold →
          t.pc.toNat = (s.pc.toNat + 4) % 2 ^ 32 ∨ t.pc.toNat = (writtenToPc s i + 4) % 2 ^ 32))

/-- Which parameter an instruction's own execution can depend on (R239, R30, R42, R55, R172): `PC_SEQ_BASE` only
where it writes r30, `ZF_LW`, `ZF_MOVH` and `ZF_READ` only LW, MOVH and READ, `INPUT` only READ, `MEM_BYTES` only
LW and SW, and `MISALIGNED_FETCH` and `OPC`, which act at the fetch and the decode, no execution. -/
def Obligations.ParametersMatterOnlyWhereNamed : Prop :=
  ∀ (i : Instr) (s t : State), exec i s = .next t →
    (Reg.pc ∉ dests i → ∀ b, SameUnder i s t fun c => { c with pcSeqBase := b }) ∧
    (i.op ≠ .lw → ∀ b, SameUnder i s t fun c => { c with zfLw := b }) ∧
    (i.op ≠ .movh → ∀ b, SameUnder i s t fun c => { c with zfMovh := b }) ∧
    (i.op ≠ .read → ∀ b, SameUnder i s t fun c => { c with zfRead := b }) ∧
    (i.op ≠ .read → ∀ src, SameUnder i s t fun c => { c with input := src }) ∧
    (i.op ∉ [Op.lw, .sw] → ∀ n, SameUnder i s t fun c => { c with memBytes := n }) ∧
    (∀ f, SameUnder i s t fun c => { c with misalignedFetch := f }) ∧
    ∀ m, SameUnder i s t fun c => { c with opc := m }

/-! ### The step, faults and cancellation -/

/-- Where the bytes at the PC decode to an instruction, a step with no cancellation request raised is exec of that
instruction (R160). With a request raised it is the cancellation, or exec of that instruction with the count of
untaken boundaries one higher and nothing else different: that clause is the model's choice of how the open
moment of R212 is taken (notes/assumptions/5.md; the count is the model's own field, notes/assumptions/9.md). -/
def Obligations.StepRunsTheDecodedInstruction : Prop :=
  ∀ (s : State) (p : Nat) (i : Instr), p = s.pc.toNat → s.status = .running →
    p + 4 ≤ s.config.memBytes → (p % 4 = 0 ∨ s.config.misalignedFetch = .byteFetch) →
    decode s.config.opc (wordOfBytes (s.byte p) (s.byte (p + 1)) (s.byte (p + 2)) (s.byte (p + 3))) = .instr i →
    (s.cancelRequested = false → step s = exec i s) ∧
    (s.cancelRequested = true → step s = .next s.cancel ∨
      step s = exec i { s with cancelPolls := s.cancelPolls + 1 })

/-- R54, R57: the fetch at the PC byte address, big-endian, with its alignment and bound checks. -/
def Obligations.FetchAtThePc : Prop :=
  ∀ (s : State) (p : Nat), p = s.pc.toNat →
    (p % 4 ≠ 0 → s.config.misalignedFetch = .fault → s.fetch = .error (.memFault .fetch p s.pc)) ∧
    (p % 4 = 0 ∨ s.config.misalignedFetch = .byteFetch →
      (p + 4 ≤ s.config.memBytes → ∃ w, s.fetch = .ok w ∧
        w.toNat = (s.byte p).toNat * 2 ^ 24 + (s.byte (p + 1)).toNat * 2 ^ 16 +
          (s.byte (p + 2)).toNat * 2 ^ 8 + (s.byte (p + 3)).toNat) ∧
      (¬ p + 4 ≤ s.config.memBytes → s.fetch = .error (.memFault .fetch p s.pc))) ∧
    ∀ m b, (Config.reference m b).misalignedFetch = .byteFetch

/-- R203, R204: a fetch that faults ends the step with its record in status, and changes nothing else. -/
def Obligations.FetchFaultStep : Prop :=
  ∀ s : State, s.status = .running → s.cancelRequested = false →
    (¬ s.pc.toNat + 4 ≤ s.config.memBytes ∨ (s.pc.toNat % 4 ≠ 0 ∧ s.config.misalignedFetch = .fault)) →
    ∃ t, step s = .next t ∧ OnlyStatus s t (.memFault .fetch s.pc.toNat s.pc)

/-- R201: a fetched word whose opcode field no operation has ends the step with DecodeFault(opcode, pc), and
changes nothing else. -/
def Obligations.DecodeFaultStep : Prop :=
  ∀ (s : State) (w : Word), s.status = .running → s.cancelRequested = false → s.fetch = .ok w →
    (∀ op, s.config.opc.code op ≠ w.extractLsb' 26 6) →
    ∃ t, step s = .next t ∧ OnlyStatus s t (.decodeFault (w.extractLsb' 26 6) s.pc)

/-- Running is the only status with a next step, and it always has one (R35). That step answers the fault `stopped`
with the status in every other one is the model's choice (notes/assumptions/8.md). -/
def Obligations.OnlyRunningHasANextStep : Prop :=
  ∀ s : State, ((∃ t, step s = .next t) ↔ s.status = .running) ∧
    (s.status ≠ .running → step s = .fault (.stopped s.status))

/-- Raising a request changes nothing but the request; that this is an act of the host's, no step's, is the model's
choice (R44; notes/assumptions/10.md). A step is the cancellation only when a request is raised (R211, R212);
then it is that, which changes only status, or the instruction step with the count of untaken boundaries one
higher, which is the model's choice of how the open moment is taken (notes/assumptions/5.md, 9.md). -/
def Obligations.CancellationAtABoundary : Prop :=
  ∀ s : State, (s.requestCancel.cancelRequested = true ∧ SameRegisters s s.requestCancel ∧
      SameMemory s s.requestCancel ∧ SamePorts s s.requestCancel ∧ s.requestCancel.status = s.status ∧
      s.requestCancel.cancelPolls = s.cancelPolls ∧ s.requestCancel.config = s.config) ∧
    (s.status = .running → s.cancelRequested = false → ∀ t, step s = .next t → t.status ≠ .cancelled) ∧
    (s.status = .running → s.cancelRequested = true →
      (∃ t, step s = .next t ∧ OnlyStatus s t .cancelled) ∨
      step s = instrStep { s with cancelPolls := s.cancelPolls + 1 })

/-- A step that ends in a terminal status, by a fault (R204) or by the cancellation (R212), changed nothing else and
has no step after it. The model's choice are the count of untaken boundaries, which may have risen where a
request was raised (notes/assumptions/5.md), and that the missing step is the fault `stopped`
(notes/assumptions/8.md). -/
def Obligations.FaultsArePrecise : Prop :=
  ∀ s t : State, step s = .next t → t.status ≠ .running →
    (OnlyStatus s t t.status ∨ OnlyStatus s.polled t t.status) ∧ SameRegisters s t ∧ SameMemory s t ∧
    SamePorts s t ∧ (s.cancelRequested = false → OnlyStatus s t t.status) ∧
    step t = .fault (.stopped t.status)

/-- Which step takes which fault (R205, R207). A record that a step leaves comes with the condition of the table's
row, after a fetch and a decode that succeeded where the record is a later one's; and the other 27 operations
take none. That each condition raises its fault is FetchFaultStep, DecodeFaultStep, LoadWord and StoreWord. -/
def Obligations.FaultsComeFromTheTable : Prop :=
  (∀ (i : Instr) (s t : State), exec i s = .next t → i.op ≠ .lw → i.op ≠ .sw → t.status = s.status) ∧
  ∀ s t : State, s.status = .running → step s = .next t →
    (∀ kind a p, t.status = .memFault kind a p → p = s.pc ∧
      ((kind = .fetch ∧ a = s.pc.toNat ∧ (¬ a + 4 ≤ s.config.memBytes ∨
          (a % 4 ≠ 0 ∧ s.config.misalignedFetch = .fault))) ∨
        (kind = .load ∧ ¬ a + 4 ≤ s.config.memBytes ∧ ∃ w r1 r2, s.fetch = .ok w ∧
          decode s.config.opc w = .instr (.lw r1 r2) ∧ a = 4 * (s.x r2).toNat) ∨
        (kind = .store ∧ ¬ a + 4 ≤ s.config.memBytes ∧ ∃ w r1 r2, s.fetch = .ok w ∧
          decode s.config.opc w = .instr (.sw r1 r2) ∧ a = 4 * (s.x r1).toNat))) ∧
    ∀ opcode p, t.status = .decodeFault opcode p → p = s.pc ∧
      ∃ w, s.fetch = .ok w ∧ opcode = w.extractLsb' 26 6 ∧ ∀ op, s.config.opc.code op ≠ opcode

/-- At a JMPI to its own address every step, and so every run, leaves the state exactly as it is (R171). That no
request comes during the run is the model's choice: no step raises one (notes/assumptions/10.md), where the host
of R44 may. -/
def Obligations.HaltLoopsInPlace : Prop :=
  ∀ s : State, s.status = .running → s.cancelRequested = false → AtHalt s →
    ∀ n, Sys2Proof.core.run n s = .next s

/-- Along every run, events are only appended, the counters never fall, and no parameter changes (R34, R37, R43).
That the host's request stays as it was along a run is the model's choice (notes/assumptions/10.md), where the
host of R44 may raise one between steps. -/
def Obligations.RunsOnlyAppend : Prop :=
  ∀ (n : Nat) (s t : State), Sys2Proof.core.run n s = .next t →
    (∃ es, t.events = s.events ++ es) ∧ s.drawCount ≤ t.drawCount ∧ s.inputCount ≤ t.inputCount ∧
    t.config = s.config ∧ t.cancelRequested = s.cancelRequested

/-! ### Process start and the invariant -/

/-- R38, R230, R231: every slot 0, so PC 0 and Z clear, Running, no draw counted, the image at byte 0 and up and
0 beyond it; an image larger than memory is not loaded. That no event and no input value is recorded at start
is the model's choice (notes/assumptions/9.md), and that an address at or above C reads 0 too is deduced
(notes/assumptions/14.md). -/
def Obligations.ProcessStart : Prop :=
  ∀ (c : Config) (image : List Byte),
    (image.length ≤ c.memBytes → ∃ s, State.boot c image = some s ∧ (∀ i, s.x i = 0) ∧ s.pc = 0 ∧
      s.z = false ∧ s.status = .running ∧ s.drawCount = 0 ∧ s.events = [] ∧ s.inputCount = 0 ∧
      (∀ a, ∀ h : a < image.length, s.byte a = image[a]) ∧ (∀ a, image.length ≤ a → s.byte a = 0) ∧
      s.config = c) ∧
    (¬ image.length ≤ c.memBytes → State.boot c image = none)

/-- State.reset is the process start (R230, R231) with no image loaded, and its memory reads 0 everywhere. The
values of its parameters are the model's choice (notes/assumptions/1.md, 2.md). -/
def Obligations.ResetIsAProcessStart : Prop :=
  State.boot Config.atReset [] = some State.reset ∧ (∀ a, State.reset.byte a = 0) ∧ Config.atReset.wf

/-- Every step keeps the invariant: slot 0 stores 0, memory is canonical and inside its capacity, pixels and
presentations match the draw counter, and a fault record names the state it was taken in
(R24, R50, R182, R184, R203, R204). -/
def Obligations.StepKeepsTheInvariant : Prop :=
  ∀ s t : State, s.Inv → step s = .next t → t.Inv

/-- The invariant holds at reset and at every process start. -/
def Obligations.InvariantHoldsAtStart : Prop :=
  State.reset.Inv ∧ ∀ (c : Config) (image : List Byte) (s : State), State.boot c image = some s → s.Inv

/-- A word placed by withFetchWord is the one the next step runs (R54). -/
def Obligations.FetchWordIsRunNext : Prop :=
  ∀ (s : State) (w : Nat) (i : Instr), s.status = .running → s.cancelRequested = false → w < 2 ^ 32 →
    s.pc.toNat + 4 ≤ s.config.memBytes → (s.pc.toNat % 4 = 0 ∨ s.config.misalignedFetch = .byteFetch) →
    decode s.config.opc (BitVec.ofNat 32 w) = .instr i →
    step (s.withFetchWord 32 w) = exec i (s.withFetchWord 32 w)

/-! ### The assembler and idioms -/

/-- R87: the pseudo-instructions have the effects the rule's table gives, LI and NEG for a general-purpose rd
(with r0 they change no register but the flags and the PC). -/
def Obligations.PseudoInstructionEffects : Prop :=
  ∀ s : State, s.status = .running →
    (∃ t, runInstrs (expand .nop) s = some t ∧ OnlyPcAdvances s t ∧ SameMemory s t ∧ SamePorts s t) ∧
    (∀ ra rb, ∃ t, runInstrs (expand (.cmp ra rb)) s = some t ∧ (t.z = true ↔ s.x ra = s.x rb) ∧
      (∀ i, i ≠ Reg.pc → i ≠ Reg.flags → t.x i = s.x i) ∧ t.pc = s.pc + 4 ∧ SameMemory s t) ∧
    (∀ ra, ∃ t, runInstrs (expand (.tst ra)) s = some t ∧ (t.z = true ↔ s.x ra = 0) ∧
      (∀ i, i ≠ Reg.pc → i ≠ Reg.flags → t.x i = s.x i) ∧ t.pc = s.pc + 4 ∧ SameMemory s t) ∧
    (∃ t, runInstrs (expand .setz) s = some t ∧ t.x Reg.flags = 1 ∧
      (∀ i, i ≠ Reg.pc → i ≠ Reg.flags → t.x i = s.x i) ∧ t.pc = s.pc + 4 ∧ SameMemory s t) ∧
    (∃ t, runInstrs (expand .clrz) s = some t ∧ t.x Reg.flags = 0 ∧
      (∀ i, i ≠ Reg.pc → i ≠ Reg.flags → t.x i = s.x i) ∧ t.pc = s.pc + 4 ∧ SameMemory s t) ∧
    (∀ rd imm, rd ≠ Reg.pc → rd ≠ Reg.flags → ∃ t, runInstrs (expand (.li rd imm)) s = some t ∧
      (rd ≠ 0#5 → t.x rd = imm ∧ (t.z = true ↔ imm = 0)) ∧
      (∀ i, i ≠ rd → i ≠ Reg.pc → i ≠ Reg.flags → t.x i = s.x i) ∧ t.pc = s.pc + 8 ∧ SameMemory s t) ∧
    (∀ rd rs, rd ≠ Reg.pc → rd ≠ Reg.flags → ∃ t, runInstrs (expand (.neg rd rs)) s = some t ∧
      (rd ≠ 0#5 → t.x rd = 0 - s.x rs ∧ (t.z = true ↔ s.x rs = 0)) ∧
      (∀ i, i ≠ rd → i ≠ Reg.pc → i ≠ Reg.flags → t.x i = s.x i) ∧ t.pc = s.pc + 8 ∧ SameMemory s t) ∧
    (∀ target, ∃ t, runInstrs (expand (.j target)) s = some t ∧ t.pc = target26 target ∧
      (∀ i, i ≠ Reg.pc → t.x i = s.x i) ∧ SameMemory s t) ∧
    ∀ self, target26 self = s.pc → ∃ t, runInstrs (expand (.halt self)) s = some t ∧ SameRegisters s t ∧
      SameMemory s t

/-- R84: a jump target written as a byte address assembles, for JMPI, JMPIZ and JMPINZ, to the instruction that jumps
there, and so does a label that stands for it; and ADDI's immediate written as a signed number assembles to the
instruction that adds it. -/
def Obligations.AssembledOperands : Prop :=
  (∀ v : Nat, v % 4 = 0 → v < 2 ^ 28 → ∃ imm : Imm26, (target26 imm).toNat = v ∧
    assemble ⟨.jmpi, [.num v]⟩ = some (.jmpi imm) ∧ assemble ⟨.jmpiz, [.num v]⟩ = some (.jmpiz imm) ∧
    assemble ⟨.jmpinz, [.num v]⟩ = some (.jmpinz imm) ∧
    ∀ (table : List (String × Nat)) (name : String) (addr : Nat), table.lookup name = some v →
      assembleItem table addr (.line ⟨.jmpi, [.label name]⟩) = some [.jmpi imm] ∧
      assembleItem table addr (.line ⟨.jmpiz, [.label name]⟩) = some [.jmpiz imm] ∧
      assembleItem table addr (.line ⟨.jmpinz, [.label name]⟩) = some [.jmpinz imm]) ∧
  ∀ (a b : Nat) (v : Int), a < 32 → b < 32 → -32768 ≤ v → v ≤ 32767 → ∃ r1 r2 imm,
    assemble ⟨.addi, [.reg a, .reg b, .num v]⟩ = some (.addi r1 r2 imm) ∧ r1.toNat = a ∧ r2.toNat = b ∧
    (sext32 imm).toInt = v

/-- R118: the two idioms that test the sign bit, ROTL then ANDI 1, and AND with a mask built by MOVH. -/
def Obligations.SignBitIdioms : Prop :=
  ∀ (s : State) (rt rs : Reg), s.status = .running → rt ≠ 0#5 → rt ≠ Reg.pc → rt ≠ Reg.flags →
    (∃ t, runInstrs [.rotl rt rs, .andi rt rt 1] s = some t ∧
      (t.z = true ↔ (s.x rs).toNat < 2 ^ 31)) ∧
    ∀ rm, rm ≠ 0#5 → rm ≠ Reg.pc → rm ≠ Reg.flags → rs ≠ rm → rs ≠ Reg.pc → rs ≠ Reg.flags →
      ∃ t, runInstrs [.movh rm 0x8000, .and rt rs rm] s = some t ∧
        (t.z = true ↔ (s.x rs).toNat < 2 ^ 31)

/-- R170: the call idiom leaves the address after it in r29 and goes to f, and JMP r29 returns there. -/
def Obligations.CallIdiomReturns : Prop :=
  ∀ (s : State) (f : Imm26), s.status = .running →
    (∃ t, runInstrs [.mov 29 Reg.pc, .addi 29 29 12, .jmpi f] s = some t ∧ t.x 29 = s.pc + 12 ∧
      t.pc = target26 f) ∧
    ∀ u : State, u.x 29 = s.pc + 12 → ∃ v, exec (.jmp 29) u = .next v ∧ v.pc = s.pc + 12
end

