-- ==== Sys2Proof/Laws/Assembler.lean ====
section
/-! SUPPORT. The small lemmas of the assembler: what a line gives, how a label becomes a jump target, and which
targets the check accepts. -/

namespace Sys2Proof.Machine

theorem assembleItem_line (table : List (String × Nat)) (addr : Nat) (l : SrcLine) :
    assembleItem table addr (.line l) = ((resolveLine table l).bind assemble).map fun i => [i] := by
  rw [assembleItem]

/-- The label of a jump target becomes the byte address the table gives it. -/
theorem resolveLine_target {table : List (String × Nat)} {op : Op} {name : String} {v : Nat}
    (hop : op ∈ [Op.jmpi, .jmpiz, .jmpinz]) (hl : table.lookup name = some v) :
    resolveLine table ⟨op, [.label name]⟩ = some ⟨op, [.num v]⟩ := by
  simp only [resolveLine, if_pos hop, resolveOperands, resolveOperand, hl, Option.map_some]

/-- A line of any other operation keeps its operands, and so its labels. -/
theorem resolveLine_other {table : List (String × Nat)} {l : SrcLine} (hop : l.op ∉ [Op.jmpi, .jmpiz, .jmpinz]) :
    resolveLine table l = some l := by
  simp only [resolveLine, if_neg hop]

theorem isTarget_num {v : Nat} (h4 : v % 4 = 0) (h : v < 2 ^ 28) : SrcOperand.isTarget (.num v) = true := by
  simp only [SrcOperand.isTarget, Bool.and_eq_true, decide_eq_true_eq, beq_iff_eq]
  omega

/-- The address of a byte-address target is the address written. -/
theorem target26_operandTarget {v : Nat} (h4 : v % 4 = 0) (h : v < 2 ^ 28) :
    (target26 (operandTarget (.num v))).toNat = v := by
  simp only [target26, operandTarget, BitVec.toNat_ofInt, BitVec.toNat_ofNat]
  omega

end Sys2Proof.Machine
end

