-- ==== Sys2Proof/Laws/Encoding.lean ====
section
/-! SUPPORT. The small lemmas of the encoder and the decoder: the fields of an encoded word, its value as the
sum of spec/30_encoding.md R82, and what dispatch answers. -/

namespace Sys2Proof

/-! ### Encoded words as sums (R82) -/

theorem encR_toNat (o : BitVec 6) (a b c d : Reg) :
    (encR o a b c d).toNat =
      o.toNat * 2 ^ 26 + a.toNat * 2 ^ 21 + b.toNat * 2 ^ 16 + c.toNat * 2 ^ 11 + d.toNat * 2 ^ 6 := by
  have ha := a.isLt; have hb := b.isLt; have hc := c.isLt; have hd := d.isLt
  simp only [encR, BitVec.toNat_append]
  rw [← Nat.shiftLeft_add_eq_or_of_lt ha, ← Nat.shiftLeft_add_eq_or_of_lt hb,
    ← Nat.shiftLeft_add_eq_or_of_lt hc, ← Nat.shiftLeft_add_eq_or_of_lt hd,
    ← Nat.shiftLeft_add_eq_or_of_lt (0#6).isLt]
  simp only [Nat.shiftLeft_eq, BitVec.toNat_ofNat]
  omega

theorem encI_toNat (o : BitVec 6) (a b : Reg) (i : Imm16) :
    (encI o a b i).toNat = o.toNat * 2 ^ 26 + a.toNat * 2 ^ 21 + b.toNat * 2 ^ 16 + i.toNat := by
  have ha := a.isLt; have hb := b.isLt; have hi := i.isLt
  simp only [encI, BitVec.toNat_append]
  rw [← Nat.shiftLeft_add_eq_or_of_lt ha, ← Nat.shiftLeft_add_eq_or_of_lt hb,
    ← Nat.shiftLeft_add_eq_or_of_lt hi]
  simp only [Nat.shiftLeft_eq]
  omega

theorem encJ_toNat (o : BitVec 6) (j : Imm26) : (encJ o j).toNat = o.toNat * 2 ^ 26 + j.toNat := by
  have hj := j.isLt
  simp only [encJ, BitVec.toNat_append]
  rw [← Nat.shiftLeft_add_eq_or_of_lt hj]
  simp only [Nat.shiftLeft_eq]

/-! ### Each field as a quotient (R71) -/

theorem extract_toNat (w : Word) (lo len : Nat) : (w.extractLsb' lo len).toNat = w.toNat / 2 ^ lo % 2 ^ len := by
  simp [BitVec.extractLsb'_toNat, Nat.shiftRight_eq_div_pow]

@[simp] theorem fields_encR (o : BitVec 6) (a b c d : Reg) :
    (fields (encR o a b c d)).opcode = o ∧ (fields (encR o a b c d)).r1 = a ∧
      (fields (encR o a b c d)).r2 = b ∧ (fields (encR o a b c d)).r3 = c ∧
      (fields (encR o a b c d)).r4 = d := by
  have ho := o.isLt; have ha := a.isLt; have hb := b.isLt; have hc := c.isLt; have hd := d.isLt
  refine ⟨?_, ?_, ?_, ?_, ?_⟩ <;> apply BitVec.eq_of_toNat_eq <;>
    simp only [fields, extract_toNat, encR_toNat] <;> omega

@[simp] theorem fields_encI (o : BitVec 6) (a b : Reg) (i : Imm16) :
    (fields (encI o a b i)).opcode = o ∧ (fields (encI o a b i)).r1 = a ∧
      (fields (encI o a b i)).r2 = b ∧ (fields (encI o a b i)).imm16 = i := by
  have ho := o.isLt; have ha := a.isLt; have hb := b.isLt; have hi := i.isLt
  refine ⟨?_, ?_, ?_, ?_⟩ <;> apply BitVec.eq_of_toNat_eq <;>
    simp only [fields, extract_toNat, encI_toNat] <;> omega

@[simp] theorem fields_encJ (o : BitVec 6) (j : Imm26) :
    (fields (encJ o j)).opcode = o ∧ (fields (encJ o j)).imm26 = j := by
  have ho := o.isLt; have hj := j.isLt
  refine ⟨?_, ?_⟩ <;> apply BitVec.eq_of_toNat_eq <;> simp only [fields, extract_toNat, encJ_toNat] <;> omega

/-! ### Dispatch (R80) -/

theorem Op.mem_all (op : Op) : op ∈ Op.all := by cases op <;> decide

/-- What dispatch answers when it finds an operation: one with that opcode value. -/
theorem code_of_dispatch {m : OpcodeMap} {opcode : BitVec 6} {op : Op} (h : dispatch m opcode = some op) :
    m.code op = opcode := by
  simpa using List.find?_some h

theorem dispatch_eq_none {m : OpcodeMap} {opcode : BitVec 6} :
    dispatch m opcode = none ↔ ∀ op, m.code op ≠ opcode := by
  simp only [dispatch, List.find?_eq_none, beq_iff_eq]
  exact ⟨fun h op => h op (Op.mem_all op), fun h op _ => h op⟩

theorem code_injective {m : OpcodeMap} (h : m.wf) {a b : Op} (hab : m.code a = m.code b) : a = b :=
  List.inj_on_of_nodup_map h (Op.mem_all a) (Op.mem_all b) hab

/-- Under an injective map dispatch finds exactly the operation that has the opcode value. -/
theorem dispatch_code {m : OpcodeMap} (h : m.wf) (op : Op) : dispatch m (m.code op) = some op := by
  cases hd : dispatch m (m.code op) with
  | none => exact absurd rfl (dispatch_eq_none.1 hd op)
  | some op' => rw [code_injective h (code_of_dispatch hd)]

/-! ### Decode -/

/-- What decode answers, once: the operation dispatch finds with the word's fields, or the opcode refused. -/
theorem decode_cases (m : OpcodeMap) (w : Word) :
    (∃ op, dispatch m (fields w).opcode = some op ∧ decode m w = .instr (op.instr (fields w))) ∨
      (dispatch m (fields w).opcode = none ∧ decode m w = .undefinedOpcode (fields w).opcode) := by
  unfold decode
  cases h : dispatch m (fields w).opcode with
  | none => exact .inr ⟨rfl, rfl⟩
  | some op => exact .inl ⟨op, rfl, rfl⟩

@[simp] theorem Op.op_instr (d : Fields) (op : Op) : (op.instr d).op = op := by cases op <;> rfl

end Sys2Proof
end

