-- ==== Sys2Proof/Laws/State.lean ====
section
/-! SUPPORT. The small lemmas of State: what each update leaves in each field, so that no later proof unfolds
a record update. Register reads go through `x_setX`. -/

namespace Sys2Proof.Machine.State

variable (s : State)

/-! ### Register reads -/

@[simp] theorem x_zero : s.x 0#5 = 0#32 := by simp [x]

theorem x_of_ne {i : Reg} (h : i ≠ 0#5) : s.x i = s.regs[i.toNat] := by simp [x, h]

theorem setX_zero (v : Word) : s.setX 0#5 v = s := by simp [setX]

/-- The one law of register writes: the slot written reads the value, unless it is slot 0; every other slot
reads as before. -/
theorem x_setX (i j : Reg) (v : Word) : (s.setX i v).x j = if j = i ∧ j ≠ 0#5 then v else s.x j := by
  by_cases hi : i = 0#5
  · subst hi
    by_cases hj : j = 0#5 <;> simp [setX, hj]
  · by_cases hj : j = 0#5
    · subst hj; simp
    · by_cases hij : j = i
      · subst hij; simp [setX, x, hj]
      · have : i.toNat ≠ j.toNat := fun h => hij (BitVec.eq_of_toNat_eq h.symm)
        simp [setX, x, hi, hj, hij, Vector.getElem_set_ne _ _ this]

theorem x_setX_self {i : Reg} (h : i ≠ 0#5) (v : Word) : (s.setX i v).x i = v := by simp [x_setX, h]

theorem x_setX_of_ne {i j : Reg} (h : j ≠ i) (v : Word) : (s.setX i v).x j = s.x j := by simp [x_setX, h]

/-- Reading depends on the register file alone. -/
theorem x_congr {s t : State} (h : t.regs = s.regs) (i : Reg) : t.x i = s.x i := by simp [x, h]

theorem byte_congr {s t : State} (h : t.mem = s.mem) (a : Nat) : t.byte a = s.byte a := by simp [byte, h]

/-! ### What each update leaves in each field -/

@[simp] theorem mem_setX (i : Reg) (v : Word) : (s.setX i v).mem = s.mem := by unfold setX; split <;> rfl
@[simp] theorem drawCount_setX (i : Reg) (v : Word) : (s.setX i v).drawCount = s.drawCount := by unfold setX; split <;> rfl
@[simp] theorem status_setX (i : Reg) (v : Word) : (s.setX i v).status = s.status := by unfold setX; split <;> rfl
@[simp] theorem events_setX (i : Reg) (v : Word) : (s.setX i v).events = s.events := by unfold setX; split <;> rfl
@[simp] theorem inputCount_setX (i : Reg) (v : Word) : (s.setX i v).inputCount = s.inputCount := by unfold setX; split <;> rfl
@[simp] theorem cancelRequested_setX (i : Reg) (v : Word) : (s.setX i v).cancelRequested = s.cancelRequested := by unfold setX; split <;> rfl
@[simp] theorem cancelPolls_setX (i : Reg) (v : Word) : (s.setX i v).cancelPolls = s.cancelPolls := by unfold setX; split <;> rfl
@[simp] theorem config_setX (i : Reg) (v : Word) : (s.setX i v).config = s.config := by unfold setX; split <;> rfl

@[simp] theorem mem_emit (e : Event) : (s.emit e).mem = s.mem := rfl
@[simp] theorem drawCount_emit (e : Event) : (s.emit e).drawCount = s.drawCount := rfl
@[simp] theorem status_emit (e : Event) : (s.emit e).status = s.status := rfl
@[simp] theorem inputCount_emit (e : Event) : (s.emit e).inputCount = s.inputCount := rfl
@[simp] theorem cancelRequested_emit (e : Event) : (s.emit e).cancelRequested = s.cancelRequested := rfl
@[simp] theorem cancelPolls_emit (e : Event) : (s.emit e).cancelPolls = s.cancelPolls := rfl
@[simp] theorem config_emit (e : Event) : (s.emit e).config = s.config := rfl
@[simp] theorem events_emit (e : Event) : (s.emit e).events = s.events ++ [e] := rfl
@[simp] theorem x_emit (e : Event) (i : Reg) : (s.emit e).x i = s.x i := rfl

@[simp] theorem mem_countDraw : (s.countDraw).mem = s.mem := rfl
@[simp] theorem status_countDraw : (s.countDraw).status = s.status := rfl
@[simp] theorem events_countDraw : (s.countDraw).events = s.events := rfl
@[simp] theorem inputCount_countDraw : (s.countDraw).inputCount = s.inputCount := rfl
@[simp] theorem cancelRequested_countDraw : (s.countDraw).cancelRequested = s.cancelRequested := rfl
@[simp] theorem cancelPolls_countDraw : (s.countDraw).cancelPolls = s.cancelPolls := rfl
@[simp] theorem config_countDraw : (s.countDraw).config = s.config := rfl
@[simp] theorem drawCount_countDraw : (s.countDraw).drawCount = s.drawCount + 1 := rfl
@[simp] theorem x_countDraw (i : Reg) : (s.countDraw).x i = s.x i := rfl

@[simp] theorem mem_tookInput : (s.tookInput).mem = s.mem := rfl
@[simp] theorem drawCount_tookInput : (s.tookInput).drawCount = s.drawCount := rfl
@[simp] theorem status_tookInput : (s.tookInput).status = s.status := rfl
@[simp] theorem events_tookInput : (s.tookInput).events = s.events := rfl
@[simp] theorem cancelRequested_tookInput : (s.tookInput).cancelRequested = s.cancelRequested := rfl
@[simp] theorem cancelPolls_tookInput : (s.tookInput).cancelPolls = s.cancelPolls := rfl
@[simp] theorem config_tookInput : (s.tookInput).config = s.config := rfl
@[simp] theorem inputCount_tookInput : (s.tookInput).inputCount = s.inputCount + 1 := rfl
@[simp] theorem x_tookInput (i : Reg) : (s.tookInput).x i = s.x i := rfl

@[simp] theorem mem_takeFault (r : Status) : (s.takeFault r).mem = s.mem := rfl
@[simp] theorem drawCount_takeFault (r : Status) : (s.takeFault r).drawCount = s.drawCount := rfl
@[simp] theorem events_takeFault (r : Status) : (s.takeFault r).events = s.events := rfl
@[simp] theorem inputCount_takeFault (r : Status) : (s.takeFault r).inputCount = s.inputCount := rfl
@[simp] theorem cancelRequested_takeFault (r : Status) : (s.takeFault r).cancelRequested = s.cancelRequested := rfl
@[simp] theorem cancelPolls_takeFault (r : Status) : (s.takeFault r).cancelPolls = s.cancelPolls := rfl
@[simp] theorem config_takeFault (r : Status) : (s.takeFault r).config = s.config := rfl
@[simp] theorem status_takeFault (r : Status) : (s.takeFault r).status = r := rfl
@[simp] theorem x_takeFault (r : Status) (i : Reg) : (s.takeFault r).x i = s.x i := rfl

@[simp] theorem mem_cancel : (s.cancel).mem = s.mem := rfl
@[simp] theorem drawCount_cancel : (s.cancel).drawCount = s.drawCount := rfl
@[simp] theorem events_cancel : (s.cancel).events = s.events := rfl
@[simp] theorem inputCount_cancel : (s.cancel).inputCount = s.inputCount := rfl
@[simp] theorem cancelRequested_cancel : (s.cancel).cancelRequested = s.cancelRequested := rfl
@[simp] theorem cancelPolls_cancel : (s.cancel).cancelPolls = s.cancelPolls := rfl
@[simp] theorem config_cancel : (s.cancel).config = s.config := rfl
@[simp] theorem status_cancel : (s.cancel).status = .cancelled := rfl
@[simp] theorem x_cancel (i : Reg) : (s.cancel).x i = s.x i := rfl

@[simp] theorem mem_requestCancel : (s.requestCancel).mem = s.mem := rfl
@[simp] theorem drawCount_requestCancel : (s.requestCancel).drawCount = s.drawCount := rfl
@[simp] theorem status_requestCancel : (s.requestCancel).status = s.status := rfl
@[simp] theorem events_requestCancel : (s.requestCancel).events = s.events := rfl
@[simp] theorem inputCount_requestCancel : (s.requestCancel).inputCount = s.inputCount := rfl
@[simp] theorem cancelPolls_requestCancel : (s.requestCancel).cancelPolls = s.cancelPolls := rfl
@[simp] theorem config_requestCancel : (s.requestCancel).config = s.config := rfl
@[simp] theorem cancelRequested_requestCancel : (s.requestCancel).cancelRequested = true := rfl
@[simp] theorem x_requestCancel (i : Reg) : (s.requestCancel).x i = s.x i := rfl

@[simp] theorem mem_setPc (v : Word) : (s.setPc v).mem = s.mem := by simp [setPc]
@[simp] theorem drawCount_setPc (v : Word) : (s.setPc v).drawCount = s.drawCount := by simp [setPc]
@[simp] theorem status_setPc (v : Word) : (s.setPc v).status = s.status := by simp [setPc]
@[simp] theorem events_setPc (v : Word) : (s.setPc v).events = s.events := by simp [setPc]
@[simp] theorem inputCount_setPc (v : Word) : (s.setPc v).inputCount = s.inputCount := by simp [setPc]
@[simp] theorem cancelRequested_setPc (v : Word) : (s.setPc v).cancelRequested = s.cancelRequested := by simp [setPc]
@[simp] theorem cancelPolls_setPc (v : Word) : (s.setPc v).cancelPolls = s.cancelPolls := by simp [setPc]
@[simp] theorem config_setPc (v : Word) : (s.setPc v).config = s.config := by simp [setPc]
theorem x_setPc (v : Word) (i : Reg) : (s.setPc v).x i = if i = Reg.pc then v else s.x i := by
  by_cases h : i = Reg.pc
  · subst h; simp [setPc, x_setX]
  · simp [setPc, x_setX, h]
@[simp] theorem pc_setPc (v : Word) : (s.setPc v).pc = v := by simp [pc, x_setPc]

@[simp] theorem mem_setZ (v : Word) : (s.setZ v).mem = s.mem := by simp [setZ]
@[simp] theorem drawCount_setZ (v : Word) : (s.setZ v).drawCount = s.drawCount := by simp [setZ]
@[simp] theorem status_setZ (v : Word) : (s.setZ v).status = s.status := by simp [setZ]
@[simp] theorem events_setZ (v : Word) : (s.setZ v).events = s.events := by simp [setZ]
@[simp] theorem inputCount_setZ (v : Word) : (s.setZ v).inputCount = s.inputCount := by simp [setZ]
@[simp] theorem cancelRequested_setZ (v : Word) : (s.setZ v).cancelRequested = s.cancelRequested := by simp [setZ]
@[simp] theorem cancelPolls_setZ (v : Word) : (s.setZ v).cancelPolls = s.cancelPolls := by simp [setZ]
@[simp] theorem config_setZ (v : Word) : (s.setZ v).config = s.config := by simp [setZ]
theorem x_setZ (v : Word) (i : Reg) : (s.setZ v).x i = if i = Reg.flags then flagsWord v else s.x i := by
  by_cases h : i = Reg.flags
  · subst h; simp [setZ, x_setX]
  · simp [setZ, x_setX, h]

@[simp] theorem mem_setZIf (on : Bool) (v : Word) : (s.setZIf on v).mem = s.mem := by cases on <;> simp [setZIf]
@[simp] theorem drawCount_setZIf (on : Bool) (v : Word) : (s.setZIf on v).drawCount = s.drawCount := by cases on <;> simp [setZIf]
@[simp] theorem status_setZIf (on : Bool) (v : Word) : (s.setZIf on v).status = s.status := by cases on <;> simp [setZIf]
@[simp] theorem events_setZIf (on : Bool) (v : Word) : (s.setZIf on v).events = s.events := by cases on <;> simp [setZIf]
@[simp] theorem inputCount_setZIf (on : Bool) (v : Word) : (s.setZIf on v).inputCount = s.inputCount := by cases on <;> simp [setZIf]
@[simp] theorem cancelRequested_setZIf (on : Bool) (v : Word) : (s.setZIf on v).cancelRequested = s.cancelRequested := by cases on <;> simp [setZIf]
@[simp] theorem cancelPolls_setZIf (on : Bool) (v : Word) : (s.setZIf on v).cancelPolls = s.cancelPolls := by cases on <;> simp [setZIf]
@[simp] theorem config_setZIf (on : Bool) (v : Word) : (s.setZIf on v).config = s.config := by cases on <;> simp [setZIf]
theorem x_setZIf (on : Bool) (v : Word) (i : Reg) :
    (s.setZIf on v).x i = if i = Reg.flags ∧ on = true then flagsWord v else s.x i := by
  cases on <;> simp [setZIf, x_setZ]

@[simp] theorem mem_advance (pc : Word) : (s.advance pc).mem = s.mem := by simp [advance]
@[simp] theorem drawCount_advance (pc : Word) : (s.advance pc).drawCount = s.drawCount := by simp [advance]
@[simp] theorem status_advance (pc : Word) : (s.advance pc).status = s.status := by simp [advance]
@[simp] theorem events_advance (pc : Word) : (s.advance pc).events = s.events := by simp [advance]
@[simp] theorem inputCount_advance (pc : Word) : (s.advance pc).inputCount = s.inputCount := by simp [advance]
@[simp] theorem cancelRequested_advance (pc : Word) : (s.advance pc).cancelRequested = s.cancelRequested := by simp [advance]
@[simp] theorem cancelPolls_advance (pc : Word) : (s.advance pc).cancelPolls = s.cancelPolls := by simp [advance]
@[simp] theorem config_advance (pc : Word) : (s.advance pc).config = s.config := by simp [advance]
@[simp] theorem mem_jump (taken : Bool) (target : Word) : (s.jump taken target).mem = s.mem := by cases taken <;> simp [jump]
@[simp] theorem drawCount_jump (taken : Bool) (target : Word) : (s.jump taken target).drawCount = s.drawCount := by cases taken <;> simp [jump]
@[simp] theorem status_jump (taken : Bool) (target : Word) : (s.jump taken target).status = s.status := by cases taken <;> simp [jump]
@[simp] theorem events_jump (taken : Bool) (target : Word) : (s.jump taken target).events = s.events := by cases taken <;> simp [jump]
@[simp] theorem inputCount_jump (taken : Bool) (target : Word) : (s.jump taken target).inputCount = s.inputCount := by cases taken <;> simp [jump]
@[simp] theorem cancelRequested_jump (taken : Bool) (target : Word) : (s.jump taken target).cancelRequested = s.cancelRequested := by cases taken <;> simp [jump]
@[simp] theorem cancelPolls_jump (taken : Bool) (target : Word) : (s.jump taken target).cancelPolls = s.cancelPolls := by cases taken <;> simp [jump]
@[simp] theorem config_jump (taken : Bool) (target : Word) : (s.jump taken target).config = s.config := by cases taken <;> simp [jump]
@[simp] theorem mem_aluResult (r1 : Reg) (res : Word) : (s.aluResult r1 res).mem = s.mem := by simp [aluResult]
@[simp] theorem drawCount_aluResult (r1 : Reg) (res : Word) : (s.aluResult r1 res).drawCount = s.drawCount := by simp [aluResult]
@[simp] theorem status_aluResult (r1 : Reg) (res : Word) : (s.aluResult r1 res).status = s.status := by simp [aluResult]
@[simp] theorem events_aluResult (r1 : Reg) (res : Word) : (s.aluResult r1 res).events = s.events := by simp [aluResult]
@[simp] theorem inputCount_aluResult (r1 : Reg) (res : Word) : (s.aluResult r1 res).inputCount = s.inputCount := by simp [aluResult]
@[simp] theorem cancelRequested_aluResult (r1 : Reg) (res : Word) : (s.aluResult r1 res).cancelRequested = s.cancelRequested := by simp [aluResult]
@[simp] theorem cancelPolls_aluResult (r1 : Reg) (res : Word) : (s.aluResult r1 res).cancelPolls = s.cancelPolls := by simp [aluResult]
@[simp] theorem config_aluResult (r1 : Reg) (res : Word) : (s.aluResult r1 res).config = s.config := by simp [aluResult]
@[simp] theorem mem_moveResult (r1 : Reg) (v : Word) (zf : Bool) : (s.moveResult r1 v zf).mem = s.mem := by simp [moveResult]
@[simp] theorem drawCount_moveResult (r1 : Reg) (v : Word) (zf : Bool) : (s.moveResult r1 v zf).drawCount = s.drawCount := by simp [moveResult]
@[simp] theorem status_moveResult (r1 : Reg) (v : Word) (zf : Bool) : (s.moveResult r1 v zf).status = s.status := by simp [moveResult]
@[simp] theorem events_moveResult (r1 : Reg) (v : Word) (zf : Bool) : (s.moveResult r1 v zf).events = s.events := by simp [moveResult]
@[simp] theorem inputCount_moveResult (r1 : Reg) (v : Word) (zf : Bool) : (s.moveResult r1 v zf).inputCount = s.inputCount := by simp [moveResult]
@[simp] theorem cancelRequested_moveResult (r1 : Reg) (v : Word) (zf : Bool) : (s.moveResult r1 v zf).cancelRequested = s.cancelRequested := by simp [moveResult]
@[simp] theorem cancelPolls_moveResult (r1 : Reg) (v : Word) (zf : Bool) : (s.moveResult r1 v zf).cancelPolls = s.cancelPolls := by simp [moveResult]
@[simp] theorem config_moveResult (r1 : Reg) (v : Word) (zf : Bool) : (s.moveResult r1 v zf).config = s.config := by simp [moveResult]

@[simp] theorem mem_polled : s.polled.mem = s.mem := by unfold polled; split <;> rfl
@[simp] theorem drawCount_polled : s.polled.drawCount = s.drawCount := by unfold polled; split <;> rfl
@[simp] theorem status_polled : s.polled.status = s.status := by unfold polled; split <;> rfl
@[simp] theorem events_polled : s.polled.events = s.events := by unfold polled; split <;> rfl
@[simp] theorem inputCount_polled : s.polled.inputCount = s.inputCount := by unfold polled; split <;> rfl
@[simp] theorem cancelRequested_polled : s.polled.cancelRequested = s.cancelRequested := by unfold polled; split <;> rfl
@[simp] theorem config_polled : s.polled.config = s.config := by unfold polled; split <;> rfl
@[simp] theorem x_polled (i : Reg) : s.polled.x i = s.x i := by unfold polled; split <;> rfl
@[simp] theorem pc_polled : s.polled.pc = s.pc := by simp [pc]
theorem polled_of_no_request (h : s.cancelRequested = false) : s.polled = s := by simp [polled, h]
theorem polled_of_request (h : s.cancelRequested = true) :
    s.polled = { s with cancelPolls := s.cancelPolls + 1 } := by simp [polled, h]
@[simp] theorem fetch_polled : s.polled.fetch = s.fetch := by unfold polled; split <;> rfl

@[simp] theorem drawCount_withFetchWord (nbits w : Nat) : (s.withFetchWord nbits w).drawCount = s.drawCount := rfl
@[simp] theorem status_withFetchWord (nbits w : Nat) : (s.withFetchWord nbits w).status = s.status := rfl
@[simp] theorem events_withFetchWord (nbits w : Nat) : (s.withFetchWord nbits w).events = s.events := rfl
@[simp] theorem inputCount_withFetchWord (nbits w : Nat) : (s.withFetchWord nbits w).inputCount = s.inputCount := rfl
@[simp] theorem cancelRequested_withFetchWord (nbits w : Nat) : (s.withFetchWord nbits w).cancelRequested = s.cancelRequested := rfl
@[simp] theorem cancelPolls_withFetchWord (nbits w : Nat) : (s.withFetchWord nbits w).cancelPolls = s.cancelPolls := rfl
@[simp] theorem config_withFetchWord (nbits w : Nat) : (s.withFetchWord nbits w).config = s.config := rfl
@[simp] theorem mem_withFetchWord (nbits w : Nat) :
    (s.withFetchWord nbits w).mem = s.mem.setWord s.pc.toNat (tableWord nbits w) := rfl
@[simp] theorem x_withFetchWord (nbits w : Nat) (i : Reg) : (s.withFetchWord nbits w).x i = s.x i := rfl
@[simp] theorem pc_withFetchWord (nbits w : Nat) : (s.withFetchWord nbits w).pc = s.pc := rfl

theorem pc_def : s.pc = s.x Reg.pc := rfl

end Sys2Proof.Machine.State
end

