-- ==== Sys2Proof/Laws/Memory.lean ====
section
/-! SUPPORT. The laws of the byte array: what one byte reads after a write, that every memory operation keeps
the canonical form and the capacity, that equal reads mean equal memories, and the word transfers. -/

namespace Sys2Proof.Machine

/-! ### One byte -/

theorem Memory.byte_drop (m : Memory) (a k : Nat) :
    (m.drop a).byte k = if k = a then 0#8 else m.byte k := by
  induction m with
  | nil => simp [Memory.drop, Memory.byte]
  | cons c m ih =>
    obtain ⟨k', b⟩ := c
    simp only [Memory.drop] at ih ⊢
    by_cases h : k' = a
    · subst h
      by_cases hk : k = k' <;> simp_all [Memory.byte]
    · by_cases hk : k = k'
      · subst hk; simp [Memory.byte, h]
      · simp [Memory.byte, h, hk, ih]

theorem Memory.byte_put (m : Memory) (a : Nat) (b : Byte) (h : ∀ c ∈ m, c.1 ≠ a) (k : Nat) :
    (m.put a b).byte k = if k = a then b else m.byte k := by
  induction m with
  | nil => simp [Memory.put, Memory.byte]
  | cons c m ih =>
    obtain ⟨k', v⟩ := c
    have hk' : k' ≠ a := h (k', v) (by simp)
    have ih := ih fun c hc => h c (by simp [hc])
    by_cases hlt : a < k'
    · simp [Memory.put, hlt, Memory.byte]
    · by_cases hk : k = k'
      · subst hk; simp [Memory.put, hlt, Memory.byte, hk']
      · simp [Memory.put, hlt, Memory.byte, hk, ih]

theorem Memory.drop_ne (m : Memory) (a : Nat) : ∀ c ∈ m.drop a, c.1 ≠ a := by
  simp [Memory.drop]

/-- The read-after-write law of one byte: the byte written reads the value, every other byte as before. -/
theorem Memory.byte_setByte (m : Memory) (a : Nat) (b : Byte) (k : Nat) :
    (m.setByte a b).byte k = if k = a then b else m.byte k := by
  unfold Memory.setByte
  split
  next hb => subst hb; exact m.byte_drop a k
  next => rw [Memory.byte_put _ _ _ (m.drop_ne a), Memory.byte_drop]; split <;> simp_all

theorem Memory.byte_setBytes (bs : List Byte) (m : Memory) (a k : Nat) :
    (m.setBytes a bs).byte k = if a ≤ k then bs[k - a]?.getD (m.byte k) else m.byte k := by
  induction bs generalizing m a with
  | nil => simp [Memory.setBytes]
  | cons b bs ih =>
    rw [Memory.setBytes, ih]
    rcases Nat.lt_trichotomy k a with h | h | h
    · rw [if_neg (by omega), if_neg (by omega), Memory.byte_setByte, if_neg (by omega)]
    · subst h; rw [if_neg (by omega), if_pos (by omega), Memory.byte_setByte, if_pos rfl]; simp
    · obtain ⟨d, hd⟩ : ∃ d, k - a = d + 1 := ⟨k - a - 1, by omega⟩
      rw [if_pos (by omega), if_pos (by omega), Memory.byte_setByte, if_neg (by omega), hd,
        show k - (a + 1) = d by omega]
      simp

/-! ### The canonical form -/

theorem Memory.wf_drop {m : Memory} (h : m.wf) (a : Nat) : (m.drop a).wf :=
  ⟨h.1.filter _, fun c hc => h.2 c (List.mem_of_mem_filter hc)⟩

theorem Memory.mem_put {m : Memory} {a : Nat} {b : Byte} {c : Host.Cell} (h : c ∈ m.put a b) :
    c = (a, b) ∨ c ∈ m := by
  induction m with
  | nil => simpa [Memory.put] using h
  | cons d m ih =>
    obtain ⟨k, v⟩ := d
    by_cases hlt : a < k
    · simpa [Memory.put, hlt] using h
    · simp only [Memory.put, hlt, if_false, List.mem_cons] at h ⊢
      rcases h with h | h
      · exact .inr (.inl h)
      · exact (ih h).imp_right .inr

theorem Memory.wf_put {m : Memory} (h : m.wf) {a : Nat} {b : Byte} (hb : b ≠ 0) (ha : ∀ c ∈ m, c.1 ≠ a) :
    (m.put a b).wf := by
  refine ⟨?_, fun c hc => ?_⟩
  · induction m with
    | nil => simp [Memory.put]
    | cons d m ih =>
      obtain ⟨k, v⟩ := d
      obtain ⟨hd, hm⟩ := List.pairwise_cons.1 h.1
      have hka : k ≠ a := ha (k, v) (by simp)
      by_cases hlt : a < k
      · simp only [Memory.put, hlt, if_true]
        refine List.pairwise_cons.2 ⟨fun c hc => ?_, h.1⟩
        rcases List.mem_cons.1 hc with rfl | hc
        · exact hlt
        · exact Nat.lt_trans hlt (hd c hc)
      · simp only [Memory.put, hlt, if_false]
        refine List.pairwise_cons.2 ⟨fun c hc => ?_, ?_⟩
        · rcases Memory.mem_put hc with rfl | hc
          · show k < a; omega
          · exact hd c hc
        · exact ih ⟨hm, fun c hc => h.2 c (by simp [hc])⟩ fun c hc => ha c (by simp [hc])
  · rcases Memory.mem_put hc with rfl | hc
    · exact hb
    · exact h.2 c hc

/-- Every memory operation keeps the canonical form: one byte written. -/
theorem Memory.wf_setByte {m : Memory} (h : m.wf) (a : Nat) (b : Byte) : (m.setByte a b).wf := by
  unfold Memory.setByte
  split
  · exact Memory.wf_drop h a
  · exact Memory.wf_put (Memory.wf_drop h a) (by assumption) (m.drop_ne a)

theorem Memory.wf_setBytes {m : Memory} (h : m.wf) (a : Nat) (bs : List Byte) : (m.setBytes a bs).wf := by
  induction bs generalizing m a with
  | nil => exact h
  | cons b bs ih => exact ih (Memory.wf_setByte h a b) (a + 1)

theorem Memory.wf_setWord {m : Memory} (h : m.wf) (a : Nat) (v : Word) : (m.setWord a v).wf :=
  Memory.wf_setBytes h a _

theorem Memory.wf_ofImage (image : List Byte) : (Memory.ofImage image).wf :=
  Memory.wf_setBytes ⟨List.Pairwise.nil, by simp⟩ 0 image

theorem Memory.below_setByte {m : Memory} {c a : Nat} (h : m.below c) (ha : a < c) (b : Byte) :
    (m.setByte a b).below c := by
  have hd : (m.drop a).below c := fun x hx => h x (List.mem_of_mem_filter hx)
  unfold Memory.setByte
  split
  · exact hd
  · intro x hx
    rcases Memory.mem_put hx with rfl | hx
    · exact ha
    · exact hd x hx

theorem Memory.below_setBytes {m : Memory} {c : Nat} (h : m.below c) {a : Nat} {bs : List Byte}
    (ha : a + bs.length ≤ c) : (m.setBytes a bs).below c := by
  induction bs generalizing m a with
  | nil => exact h
  | cons b bs ih =>
    simp only [List.length_cons] at ha
    exact ih (Memory.below_setByte h (by omega) b) (by omega)

theorem Memory.below_setWord {m : Memory} {c a : Nat} (h : m.below c) (ha : a + 4 ≤ c) (v : Word) :
    (m.setWord a v).below c := Memory.below_setBytes h (by simpa [bytesOfWord] using ha)

theorem Memory.below_ofImage {image : List Byte} {c : Nat} (h : image.length ≤ c) :
    (Memory.ofImage image).below c := Memory.below_setBytes (by simp) (by simpa using h)

/-- After the loader, the image at byte 0 and up and 0 beyond it. -/
theorem Memory.byte_ofImage (image : List Byte) (a : Nat) :
    (Memory.ofImage image).byte a = image[a]?.getD 0#8 := by
  simp [Memory.ofImage, Memory.byte_setBytes, Memory.byte]

theorem Memory.byte_of_lt_all {m : Memory} {a : Nat} (h : ∀ c ∈ m, a < c.1) : m.byte a = 0 := by
  induction m with
  | nil => rfl
  | cons c m ih =>
    obtain ⟨k, b⟩ := c
    have hk : a < k := h (k, b) (by simp)
    rw [Memory.byte, if_neg (by omega)]
    exact ih fun c hc => h c (by simp [hc])

/-- Equal memories are equal data: two canonical memories that read alike everywhere are the same list. -/
theorem Memory.eq_of_byte_eq {m n : Memory} (hm : m.wf) (hn : n.wf) (h : ∀ a, m.byte a = n.byte a) : m = n := by
  induction m generalizing n with
  | nil =>
    cases n with
    | nil => rfl
    | cons d n => exact absurd (h d.1).symm (by simpa [Memory.byte] using hn.2 d (by simp))
  | cons c m ih =>
    obtain ⟨k, b⟩ := c
    have hb : b ≠ 0 := hm.2 (k, b) (by simp)
    obtain ⟨hcm, hpm⟩ := List.pairwise_cons.1 hm.1
    cases n with
    | nil => exact absurd (h k) (by simpa [Memory.byte] using hb)
    | cons d n =>
      obtain ⟨l, e⟩ := d
      have he : e ≠ 0 := hn.2 (l, e) (by simp)
      obtain ⟨hdn, hpn⟩ := List.pairwise_cons.1 hn.1
      have hkl : k = l := by
        rcases Nat.lt_trichotomy k l with hlt | heq | hlt
        · have := h k
          rw [Memory.byte, if_pos rfl, Memory.byte, if_neg (by omega),
            Memory.byte_of_lt_all fun c hc => Nat.lt_trans hlt (hdn c hc)] at this
          exact absurd this hb
        · exact heq
        · have := h l
          rw [Memory.byte, if_neg (by omega), Memory.byte_of_lt_all fun c hc => Nat.lt_trans hlt (hcm c hc),
            Memory.byte, if_pos rfl] at this
          exact absurd this.symm he
      subst hkl
      have hbe : b = e := by simpa [Memory.byte] using h k
      subst hbe
      rw [ih ⟨hpm, fun c hc => hm.2 c (by simp [hc])⟩ ⟨hpn, fun c hc => hn.2 c (by simp [hc])⟩ fun a => ?_]
      by_cases ha : a = k
      · subst ha; rw [Memory.byte_of_lt_all hcm, Memory.byte_of_lt_all hdn]
      · simpa [Memory.byte, ha] using h a

/-! ### Words -/

theorem wordOfBytes_toNat (b0 b1 b2 b3 : Byte) :
    (wordOfBytes b0 b1 b2 b3).toNat =
      b0.toNat * 2 ^ 24 + b1.toNat * 2 ^ 16 + b2.toNat * 2 ^ 8 + b3.toNat := by
  have h0 := b0.isLt; have h1 := b1.isLt; have h2 := b2.isLt; have h3 := b3.isLt
  simp only [wordOfBytes, BitVec.toNat_append]
  rw [← Nat.shiftLeft_add_eq_or_of_lt h1, ← Nat.shiftLeft_add_eq_or_of_lt h2,
    ← Nat.shiftLeft_add_eq_or_of_lt h3]
  simp only [Nat.shiftLeft_eq]
  omega

/-- The four bytes of a word, put together again, are the word. -/
theorem wordOfBytes_extract (v : Word) :
    wordOfBytes (v.extractLsb' 24 8) (v.extractLsb' 16 8) (v.extractLsb' 8 8) (v.extractLsb' 0 8) = v := by
  apply BitVec.eq_of_toNat_eq
  have := v.isLt
  simp only [wordOfBytes_toNat, BitVec.extractLsb'_toNat, Nat.shiftRight_eq_div_pow]
  omega

/-- Storing a word writes its bytes big-endian and no other byte. -/
theorem Memory.byte_setWord (m : Memory) (a k : Nat) (v : Word) :
    (m.setWord a v).byte k =
      if k = a then v.extractLsb' 24 8 else if k = a + 1 then v.extractLsb' 16 8
      else if k = a + 2 then v.extractLsb' 8 8 else if k = a + 3 then v.extractLsb' 0 8
      else m.byte k := by
  simp only [Memory.setWord, bytesOfWord, Memory.setBytes, Memory.byte_setByte]
  split_ifs <;> first | rfl | omega

theorem Memory.byte_setWord_of_out {m : Memory} {a k : Nat} (h : k < a ∨ a + 4 ≤ k) (v : Word) :
    (m.setWord a v).byte k = m.byte k := by
  rw [Memory.byte_setWord, if_neg (by omega), if_neg (by omega), if_neg (by omega), if_neg (by omega)]

/-- A word read where it was stored is the word stored. -/
theorem Memory.word_setWord (m : Memory) (a : Nat) (v : Word) : (m.setWord a v).word a = v := by
  simp [Memory.word, Memory.byte_setWord, wordOfBytes_extract]

/-- A word read clear of the stored bytes is as before. -/
theorem Memory.word_setWord_of_out {m : Memory} {a k : Nat} (h : k + 4 ≤ a ∨ a + 4 ≤ k) (v : Word) :
    (m.setWord a v).word k = m.word k := by
  simp only [Memory.word]
  rw [Memory.byte_setWord_of_out (by omega), Memory.byte_setWord_of_out (by omega),
    Memory.byte_setWord_of_out (by omega), Memory.byte_setWord_of_out (by omega)]

theorem Memory.word_congr {m n : Memory} (h : ∀ a, m.byte a = n.byte a) (a : Nat) : m.word a = n.word a := by
  simp [Memory.word, h]

end Sys2Proof.Machine
end

