-- ==== Sys2Proof/Laws/Meanings.lean ====
section
/-! SUPPORT. For each shared operation, once, all it can do; and one inversion lemma that says, for every
instruction, what its next state is. Provers cite these instead of unfolding exec. -/

namespace Sys2Proof.Machine

/-! ### The next PC -/

@[simp] theorem seqBase_self (b : PcSeqBase) (pc : Word) : seqBase b pc pc = pc := by
  cases b <;> simp [seqBase]

theorem seqBase_cases (b : PcSeqBase) (pc after : Word) :
    (b = .fetchPC ∧ seqBase b pc after = pc) ∨ (b = .r30AfterExecute ∧ seqBase b pc after = after) ∨
      (b = .notTold ∧ (seqBase b pc after = pc ∨ seqBase b pc after = after)) := by
  cases b with
  | fetchPC => simp [seqBase]
  | r30AfterExecute => simp [seqBase]
  | notTold => simp only [seqBase]; split_ifs <;> simp

/-- Everything the sequential PC update does to the registers. -/
theorem State.x_advance (t : State) (pc : Word) (i : Reg) :
    (t.advance pc).x i = if i = Reg.pc then seqBase t.config.pcSeqBase pc t.pc + 4 else t.x i := by
  simp only [State.advance, State.x_setPc]

theorem State.pc_advance_self (t : State) : (t.advance t.pc).pc = t.pc + 4 := by
  simp [State.pc, State.x_advance]

/-- Everything a jump does to the registers. -/
theorem State.x_jump (s : State) (taken : Bool) (target : Word) (i : Reg) :
    (s.jump taken target).x i = if i = Reg.pc then (if taken then target else s.pc + 4) else s.x i := by
  cases taken <;> simp [State.jump, State.x_advance, State.x_setPc]

/-! ### Results -/

/-- Everything `aluResult` does to the registers. -/
theorem State.x_aluResult (s : State) (r1 : Reg) (res : Word) (i : Reg) :
    (s.aluResult r1 res).x i =
      if i = Reg.pc then seqBase s.config.pcSeqBase s.pc (if r1 = Reg.pc then res else s.pc) + 4
      else if i = Reg.flags then flagsWord res
      else if i = r1 ∧ i ≠ 0#5 then res else s.x i := by
  simp only [State.aluResult, State.x_advance, State.config_setZ, State.config_setX]
  by_cases hp : i = Reg.pc
  · subst hp
    simp only [if_true, State.pc, State.x_setZ, State.x_setX, show (Reg.pc = Reg.flags) = False by decide,
      show (Reg.pc ≠ 0#5) = True by decide, if_false, and_true, eq_comm (a := Reg.pc)]
  · simp only [hp, if_false, State.x_setZ, State.x_setX]

/-- Everything `moveResult` does to the registers. -/
theorem State.x_moveResult (s : State) (r1 : Reg) (v : Word) (zf : Bool) (i : Reg) :
    (s.moveResult r1 v zf).x i =
      if i = Reg.pc then seqBase s.config.pcSeqBase s.pc (if r1 = Reg.pc then v else s.pc) + 4
      else if i = Reg.flags ∧ zf = true then flagsWord v
      else if i = r1 ∧ i ≠ 0#5 then v else s.x i := by
  simp only [State.moveResult, State.x_advance, State.config_setZIf, State.config_setX]
  by_cases hp : i = Reg.pc
  · subst hp
    simp only [if_true, State.pc, State.x_setZIf, State.x_setX, show (Reg.pc = Reg.flags) = False by decide, false_and,
      show (Reg.pc ≠ 0#5) = True by decide, if_false, and_true, eq_comm (a := Reg.pc)]
  · simp only [hp, if_false, State.x_setZIf, State.x_setX]

/-! ### Memory accesses and the fetch -/

theorem State.memRead_of_inRange {s : State} {a : Nat} (h : a + 4 ≤ s.config.memBytes) (k : AccessKind) :
    s.memRead k a = .ok (s.mem.word a) := by simp [State.memRead, State.inRange, h]

theorem State.memRead_of_out {s : State} {a : Nat} (h : ¬ a + 4 ≤ s.config.memBytes) (k : AccessKind) :
    s.memRead k a = .error (.memFault k a s.pc) := by simp [State.memRead, State.inRange, h]

theorem State.memWrite_of_inRange {s : State} {a : Nat} (h : a + 4 ≤ s.config.memBytes) (v : Word) :
    s.memWrite a v = .ok { s with mem := s.mem.setWord a v } := by simp [State.memWrite, State.inRange, h]

theorem State.memWrite_of_out {s : State} {a : Nat} (h : ¬ a + 4 ≤ s.config.memBytes) (v : Word) :
    s.memWrite a v = .error (.memFault .store a s.pc) := by simp [State.memWrite, State.inRange, h]

/-- What the fetch answers, once (spec/20_memory.md R57, spec/60_exceptions.md R207). -/
theorem State.fetch_cases (s : State) :
    (s.pc.toNat % 4 ≠ 0 ∧ s.config.misalignedFetch = .fault ∧
        s.fetch = .error (.memFault .fetch s.pc.toNat s.pc)) ∨
      (¬ (s.pc.toNat % 4 ≠ 0 ∧ s.config.misalignedFetch = .fault) ∧ ¬ s.pc.toNat + 4 ≤ s.config.memBytes ∧
        s.fetch = .error (.memFault .fetch s.pc.toNat s.pc)) ∨
      (¬ (s.pc.toNat % 4 ≠ 0 ∧ s.config.misalignedFetch = .fault) ∧ s.pc.toNat + 4 ≤ s.config.memBytes ∧
        s.fetch = .ok (s.mem.word s.pc.toNat)) := by
  by_cases hm : s.pc.toNat % 4 ≠ 0 ∧ s.config.misalignedFetch = .fault
  · exact .inl ⟨hm.1, hm.2, by rw [State.fetch, if_pos hm]⟩
  · by_cases hr : s.pc.toNat + 4 ≤ s.config.memBytes
    · exact .inr (.inr ⟨hm, hr, by rw [State.fetch, if_neg hm, State.memRead_of_inRange hr]⟩)
    · exact .inr (.inl ⟨hm, hr, by rw [State.fetch, if_neg hm, State.memRead_of_out hr]⟩)

/-! ### Every instruction's next state -/

/-- The next states an instruction can have: one line for each shape of meaning. -/
inductive NextOf (s : State) : Instr → State → Prop
  /-- NOT to ADDI, less MUL. -/
  | alu (i : Instr) (r1 : Reg) (res : Word) (hd : dests i = [r1]) (hz : ∀ c, updatesZ c i.op = true)
      (hop : i.op ∉ [Op.mul, .mov, .sw, .lw, .movh, .jmp, .jz, .jnz, .jmpi, .jmpiz, .jmpinz, .read, .draw, .clear]) :
      NextOf s i (s.aluResult r1 res)
  | mul (r1 r2 r3 r4 : Reg) (lo hi : Word) (hlo : lo = BitVec.ofNat 32 (product (s.x r3) (s.x r4)))
      (hhi : hi = BitVec.ofNat 32 (product (s.x r3) (s.x r4) / 2 ^ 32)) :
      NextOf s (.mul r1 r2 r3 r4) ((((s.setX r1 lo).setX r2 hi).setZ lo).advance s.pc)
  | mov (r1 r2 : Reg) : NextOf s (.mov r1 r2) (s.moveResult r1 (s.x r2) false)
  | movh (r1 : Reg) (imm : Imm16) : NextOf s (.movh r1 imm) (s.moveResult r1 (upper32 imm) s.config.zfMovh)
  | sw (r1 r2 : Reg) (h : byteAddress (s.x r1) + 4 ≤ s.config.memBytes) :
      NextOf s (.sw r1 r2)
        (State.advance { s with mem := s.mem.setWord (byteAddress (s.x r1)) (s.x r2) } s.pc)
  | swFault (r1 r2 : Reg) (h : ¬ byteAddress (s.x r1) + 4 ≤ s.config.memBytes) :
      NextOf s (.sw r1 r2) (s.takeFault (.memFault .store (byteAddress (s.x r1)) s.pc))
  | lw (r1 r2 : Reg) (h : byteAddress (s.x r2) + 4 ≤ s.config.memBytes) :
      NextOf s (.lw r1 r2) (s.moveResult r1 (s.mem.word (byteAddress (s.x r2))) s.config.zfLw)
  | lwFault (r1 r2 : Reg) (h : ¬ byteAddress (s.x r2) + 4 ≤ s.config.memBytes) :
      NextOf s (.lw r1 r2) (s.takeFault (.memFault .load (byteAddress (s.x r2)) s.pc))
  | jump (i : Instr) (taken : Bool) (target : Word)
      (hop : i.op ∈ [Op.jmp, .jz, .jnz, .jmpi, .jmpiz, .jmpinz])
      (ht : i.op ∈ [Op.jmpi, .jmpiz, .jmpinz] → ∃ imm, target = target26 imm) :
      NextOf s i (s.jump taken target)
  | read (r1 : Reg) : NextOf s (.read r1) (s.tookInput.moveResult r1 s.input s.config.zfRead)
  | draw (r1 r2 : Reg) (e : Event) (he : e = .setPixel (pixelX (s.x r1)) (pixelY (s.x r1)) (pixelRgb (s.x r2)))
      (h : (s.drawCount + 1) % 256 ≠ 0) :
      NextOf s (.draw r1 r2) (((s.emit e).countDraw).advance s.pc)
  | drawPresent (r1 r2 : Reg) (e : Event)
      (he : e = .setPixel (pixelX (s.x r1)) (pixelY (s.x r1)) (pixelRgb (s.x r2)))
      (h : (s.drawCount + 1) % 256 = 0) :
      NextOf s (.draw r1 r2) ((((s.emit e).countDraw).emit .present).advance s.pc)
  | clear : NextOf s .clear (((s.emit .clearToBlack).emit .present).advance s.pc)

/-- Every instruction has a next state, and this is all it can be. -/
theorem exec_next (i : Instr) (s : State) : ∃ t, exec i s = .next t ∧ NextOf s i t := by
  cases i with
  | not r1 r2 => exact ⟨_, rfl, .alu _ _ _ rfl (fun _ => rfl) (by simp [Instr.op])⟩
  | xor r1 r2 r3 => exact ⟨_, rfl, .alu _ _ _ rfl (fun _ => rfl) (by simp [Instr.op])⟩
  | or r1 r2 r3 => exact ⟨_, rfl, .alu _ _ _ rfl (fun _ => rfl) (by simp [Instr.op])⟩
  | and r1 r2 r3 => exact ⟨_, rfl, .alu _ _ _ rfl (fun _ => rfl) (by simp [Instr.op])⟩
  | shl r1 r2 => exact ⟨_, rfl, .alu _ _ _ rfl (fun _ => rfl) (by simp [Instr.op])⟩
  | shr r1 r2 => exact ⟨_, rfl, .alu _ _ _ rfl (fun _ => rfl) (by simp [Instr.op])⟩
  | rotl r1 r2 => exact ⟨_, rfl, .alu _ _ _ rfl (fun _ => rfl) (by simp [Instr.op])⟩
  | rotr r1 r2 => exact ⟨_, rfl, .alu _ _ _ rfl (fun _ => rfl) (by simp [Instr.op])⟩
  | add r1 r2 r3 => exact ⟨_, rfl, .alu _ _ _ rfl (fun _ => rfl) (by simp [Instr.op])⟩
  | sub r1 r2 r3 => exact ⟨_, rfl, .alu _ _ _ rfl (fun _ => rfl) (by simp [Instr.op])⟩
  | inc r1 r2 => exact ⟨_, rfl, .alu _ _ _ rfl (fun _ => rfl) (by simp [Instr.op])⟩
  | dec r1 r2 => exact ⟨_, rfl, .alu _ _ _ rfl (fun _ => rfl) (by simp [Instr.op])⟩
  | mul r1 r2 r3 r4 => exact ⟨_, rfl, .mul r1 r2 r3 r4 _ _ rfl rfl⟩
  | ori r1 r2 imm => exact ⟨_, rfl, .alu _ _ _ rfl (fun _ => rfl) (by simp [Instr.op])⟩
  | andi r1 r2 imm => exact ⟨_, rfl, .alu _ _ _ rfl (fun _ => rfl) (by simp [Instr.op])⟩
  | addi r1 r2 imm => exact ⟨_, rfl, .alu _ _ _ rfl (fun _ => rfl) (by simp [Instr.op])⟩
  | mov r1 r2 => exact ⟨_, rfl, .mov r1 r2⟩
  | sw r1 r2 =>
    by_cases h : byteAddress (s.x r1) + 4 ≤ s.config.memBytes
    · exact ⟨_, by simp [exec, execSw, State.memWrite_of_inRange h], .sw r1 r2 h⟩
    · exact ⟨_, by simp [exec, execSw, State.memWrite_of_out h], .swFault r1 r2 h⟩
  | lw r1 r2 =>
    by_cases h : byteAddress (s.x r2) + 4 ≤ s.config.memBytes
    · exact ⟨_, by simp [exec, execLw, State.memRead_of_inRange h], .lw r1 r2 h⟩
    · exact ⟨_, by simp [exec, execLw, State.memRead_of_out h], .lwFault r1 r2 h⟩
  | movh r1 imm => exact ⟨_, rfl, .movh r1 imm⟩
  | jmp r1 => exact ⟨_, rfl, .jump _ _ _ (by simp [Instr.op]) (by simp [Instr.op])⟩
  | jz r1 => exact ⟨_, rfl, .jump _ _ _ (by simp [Instr.op]) (by simp [Instr.op])⟩
  | jnz r1 => exact ⟨_, rfl, .jump _ _ _ (by simp [Instr.op]) (by simp [Instr.op])⟩
  | jmpi imm => exact ⟨_, rfl, .jump _ _ _ (by simp [Instr.op]) fun _ => ⟨imm, rfl⟩⟩
  | jmpiz imm => exact ⟨_, rfl, .jump _ _ _ (by simp [Instr.op]) fun _ => ⟨imm, rfl⟩⟩
  | jmpinz imm => exact ⟨_, rfl, .jump _ _ _ (by simp [Instr.op]) fun _ => ⟨imm, rfl⟩⟩
  | read r1 => exact ⟨_, rfl, .read r1⟩
  | draw r1 r2 =>
    by_cases h : (s.drawCount + 1) % 256 = 0
    · exact ⟨_, by simp [exec, execDraw, h], .drawPresent r1 r2 _ rfl h⟩
    · exact ⟨_, by simp [exec, execDraw, h], .draw r1 r2 _ rfl h⟩
  | clear => exact ⟨_, rfl, .clear⟩

/-- The inversion lemma: a next state of exec is one of NextOf. -/
theorem nextOf_of_exec {i : Instr} {s t : State} (h : exec i s = .next t) : NextOf s i t := by
  obtain ⟨t', h', hn⟩ := exec_next i s
  rw [h] at h'
  cases h'
  exact hn

/-! ### The step -/

/-- What the instruction step does, once. -/
theorem instrStep_cases (s : State) :
    (∃ record, s.fetch = .error record ∧ instrStep s = .next (s.takeFault record)) ∨
      (∃ w opcode, s.fetch = .ok w ∧ decode s.config.opc w = .undefinedOpcode opcode ∧
        instrStep s = .next (s.takeFault (.decodeFault opcode s.pc))) ∨
      (∃ w i, s.fetch = .ok w ∧ decode s.config.opc w = .instr i ∧ instrStep s = exec i s) := by
  cases hf : s.fetch with
  | error record => exact .inl ⟨record, rfl, by simp [instrStep, hf]⟩
  | ok w =>
    cases hd : decode s.config.opc w with
    | undefinedOpcode o => exact .inr (.inl ⟨w, o, rfl, hd, by simp [instrStep, hf, hd]⟩)
    | instr i => exact .inr (.inr ⟨w, i, rfl, hd, by simp [instrStep, hf, hd]⟩)

/-- What a step does, once. -/
theorem step_cases (s : State) :
    (s.status ≠ .running ∧ step s = .fault (.stopped s.status)) ∨
      (s.status = .running ∧ s.takesCancel = true ∧ step s = .next s.cancel) ∨
      (s.status = .running ∧ s.takesCancel = false ∧ step s = instrStep s.polled) := by
  by_cases hr : s.status = .running
  · cases hc : s.takesCancel with
    | false => exact .inr (.inr ⟨hr, rfl, by simp [step, hr, hc]⟩)
    | true => exact .inr (.inl ⟨hr, rfl, by simp [step, hr, hc]⟩)
  · refine .inl ⟨hr, ?_⟩
    unfold step
    split
    · exact absurd (by assumption) hr
    · rfl

end Sys2Proof.Machine
end

