-- ==== Sys2Proof/Laws/Effects.lean ====
section
/-! SUPPORT. Each shared operation in the terms of Sys2Proof/Safety.lean: what it does is the effect those terms
describe. -/

namespace Sys2Proof.Machine

theorem sameMemory_of_mem {s t : State} (h : t.mem = s.mem) : SameMemory s t := State.byte_congr h

theorem sameRegisters_of_regs {s t : State} (h : t.regs = s.regs) : SameRegisters s t := State.x_congr h

theorem z_of_flags {t : State} {v : Word} (h : t.x Reg.flags = flagsWord v) : t.z = true ↔ v = 0#32 := by
  by_cases hv : v = 0#32 <;> simp [State.z, h, flagsWord, hv]

theorem flagsWord_of_toNat {v : Word} {n : Nat} (h : v.toNat = n % 2 ^ 32) :
    flagsWord v = if n % 2 ^ 32 = 0 then 1#32 else 0#32 := by
  have : v = 0#32 ↔ n % 2 ^ 32 = 0 := by rw [← h]; simp [BitVec.toNat_eq]
  simp only [flagsWord, this]

/-- The sequential PC, in the words of R172. -/
theorem sequentialPc_of {s t : State} {after : Word} {written : Option Word}
    (hpc : t.pc = seqBase s.config.pcSeqBase s.pc after + 4)
    (hw : after = written.getD s.pc) : SequentialPc s t written := by
  cases written with
  | none => subst hw; simpa [SequentialPc] using hpc
  | some v =>
    rw [hw, Option.getD_some] at hpc
    simp only [SequentialPc]
    rcases seqBase_cases s.config.pcSeqBase s.pc v with ⟨hb, h⟩ | ⟨hb, h⟩ | ⟨hb, h | h⟩ <;>
      rw [h] at hpc <;> simp [hb, hpc]

/-- `aluResult` is the effect of R100 for any integer its result word stands for. -/
theorem aluResult_effect (s : State) (r1 : Reg) {v : Word} {res : Nat} (h : v.toNat = res % 2 ^ 32) :
    AluEffect s (s.aluResult r1 v) r1 res where
  result h0 hp hf := by simpa [State.x_aluResult, h0, hp, hf] using h
  slot0 := by simp
  flags := by rw [State.x_aluResult, ← flagsWord_of_toNat h]; simp
  others i h1 hp hf := by
    rw [State.x_aluResult, if_neg hp, if_neg hf, if_neg fun hc => h1 hc.1]
  nextPc := by
    have hv : BitVec.ofNat 32 res = v := BitVec.eq_of_toNat_eq (by simp [h])
    refine sequentialPc_of (after := if r1 = Reg.pc then v else s.pc) ?_ ?_
    · rw [State.pc, State.x_aluResult, if_pos rfl]
    · split <;> simp [hv]
  memory := sameMemory_of_mem (by simp)
  ports := ⟨by simp, by simp, by simp⟩
  run := ⟨by simp, by simp, by simp, by simp⟩

theorem z_aluResult (s : State) (r1 : Reg) (v : Word) : (s.aluResult r1 v).z = true ↔ v = 0#32 :=
  z_of_flags (by simp [State.x_aluResult])

/-- `moveResult` does to the registers what the moves do. -/
theorem moveResult_registers (s : State) (r1 : Reg) (v : Word) (zf : Bool) :
    MoveRegisters s (s.moveResult r1 v zf) r1 v zf where
  result h0 hp hf := by
    rw [State.x_moveResult, if_neg hp, if_neg, if_pos ⟨rfl, h0⟩]
    rintro ⟨h, hz⟩
    simp [hf h] at hz
  slot0 := by simp
  flagsOn h := by rw [State.x_moveResult]; simp [h, flagsWord]
  flagsOff h hf := by rw [State.x_moveResult]; simp [h, Ne.symm hf]
  others i h1 hp hf := by
    rw [State.x_moveResult, if_neg hp, if_neg fun hc => hf hc.1, if_neg fun hc => h1 hc.1]
  nextPc := by
    refine sequentialPc_of (after := if r1 = Reg.pc then v else s.pc) ?_ ?_
    · rw [State.pc, State.x_moveResult, if_pos rfl]
    · split <;> simp

/-- `jump` changes the PC and nothing else. -/
theorem jump_effect (s : State) (taken : Bool) (target : Word) :
    JumpEffect s (s.jump taken target) taken target where
  nextPc := by rw [State.pc, State.x_jump, if_pos rfl]
  others i hp := by rw [State.x_jump, if_neg hp]
  memory := sameMemory_of_mem (by simp)
  ports := ⟨by simp, by simp, by simp⟩
  run := ⟨by simp, by simp, by simp, by simp⟩

/-- Advancing from a state whose registers are those of s. -/
theorem advance_onlyPc {s t : State} (h : t.regs = s.regs) : OnlyPcAdvances s (t.advance s.pc) := by
  have hx := State.x_congr h
  have hp : t.pc = s.pc := hx _
  exact ⟨by rw [State.pc, State.x_advance, if_pos rfl, hp, seqBase_self],
    fun i hi => by rw [State.x_advance, if_neg hi, hx]⟩

theorem takeFault_onlyStatus (s : State) (record : Status) : OnlyStatus s (s.takeFault record) record :=
  ⟨rfl, fun _ => rfl, fun _ => rfl, ⟨rfl, rfl, rfl⟩, rfl, rfl, rfl⟩

theorem cancel_onlyStatus (s : State) : OnlyStatus s s.cancel .cancelled :=
  ⟨rfl, fun _ => rfl, fun _ => rfl, ⟨rfl, rfl, rfl⟩, rfl, rfl, rfl⟩

end Sys2Proof.Machine
end

