-- ==== Sys2Proof/Laws/PerInstr.lean ====
section
/-! SUPPORT. Statements for all instructions, made per instruction: the opcode field of an encoded word, and
the instruction the fields of an encoded word give back. -/

namespace Sys2Proof.Laws

/-- The opcode field of an instruction's word is its operation's `OPC` value. -/
def EncodedOpcode.Statement (i : Instr) : Prop := ∀ m : OpcodeMap, (fields (encode m i)).opcode = m.code i.op

/-- The fields of an instruction's word give the instruction back: no operand bit is dropped. -/
def EncodedFields.Statement (i : Instr) : Prop := ∀ m : OpcodeMap, i.op.instr (fields (encode m i)) = i

theorem EncodedOpcode.not (r1 r2 : Reg) : EncodedOpcode.Statement (.not r1 r2) := by
  intro m; simp [encode, Instr.op, OpcodeMap.code]

theorem EncodedOpcode.xor (r1 r2 r3 : Reg) : EncodedOpcode.Statement (.xor r1 r2 r3) := by
  intro m; simp [encode, Instr.op, OpcodeMap.code]

theorem EncodedOpcode.or (r1 r2 r3 : Reg) : EncodedOpcode.Statement (.or r1 r2 r3) := by
  intro m; simp [encode, Instr.op, OpcodeMap.code]

theorem EncodedOpcode.and (r1 r2 r3 : Reg) : EncodedOpcode.Statement (.and r1 r2 r3) := by
  intro m; simp [encode, Instr.op, OpcodeMap.code]

theorem EncodedOpcode.shl (r1 r2 : Reg) : EncodedOpcode.Statement (.shl r1 r2) := by
  intro m; simp [encode, Instr.op, OpcodeMap.code]

theorem EncodedOpcode.shr (r1 r2 : Reg) : EncodedOpcode.Statement (.shr r1 r2) := by
  intro m; simp [encode, Instr.op, OpcodeMap.code]

theorem EncodedOpcode.rotl (r1 r2 : Reg) : EncodedOpcode.Statement (.rotl r1 r2) := by
  intro m; simp [encode, Instr.op, OpcodeMap.code]

theorem EncodedOpcode.rotr (r1 r2 : Reg) : EncodedOpcode.Statement (.rotr r1 r2) := by
  intro m; simp [encode, Instr.op, OpcodeMap.code]

theorem EncodedOpcode.add (r1 r2 r3 : Reg) : EncodedOpcode.Statement (.add r1 r2 r3) := by
  intro m; simp [encode, Instr.op, OpcodeMap.code]

theorem EncodedOpcode.sub (r1 r2 r3 : Reg) : EncodedOpcode.Statement (.sub r1 r2 r3) := by
  intro m; simp [encode, Instr.op, OpcodeMap.code]

theorem EncodedOpcode.inc (r1 r2 : Reg) : EncodedOpcode.Statement (.inc r1 r2) := by
  intro m; simp [encode, Instr.op, OpcodeMap.code]

theorem EncodedOpcode.dec (r1 r2 : Reg) : EncodedOpcode.Statement (.dec r1 r2) := by
  intro m; simp [encode, Instr.op, OpcodeMap.code]

theorem EncodedOpcode.mul (r1 r2 r3 r4 : Reg) : EncodedOpcode.Statement (.mul r1 r2 r3 r4) := by
  intro m; simp [encode, Instr.op, OpcodeMap.code]

theorem EncodedOpcode.ori (r1 r2 : Reg) (imm16 : Imm16) : EncodedOpcode.Statement (.ori r1 r2 imm16) := by
  intro m; simp [encode, Instr.op, OpcodeMap.code]

theorem EncodedOpcode.andi (r1 r2 : Reg) (imm16 : Imm16) : EncodedOpcode.Statement (.andi r1 r2 imm16) := by
  intro m; simp [encode, Instr.op, OpcodeMap.code]

theorem EncodedOpcode.addi (r1 r2 : Reg) (imm16 : Imm16) : EncodedOpcode.Statement (.addi r1 r2 imm16) := by
  intro m; simp [encode, Instr.op, OpcodeMap.code]

theorem EncodedOpcode.mov (r1 r2 : Reg) : EncodedOpcode.Statement (.mov r1 r2) := by
  intro m; simp [encode, Instr.op, OpcodeMap.code]

theorem EncodedOpcode.sw (r1 r2 : Reg) : EncodedOpcode.Statement (.sw r1 r2) := by
  intro m; simp [encode, Instr.op, OpcodeMap.code]

theorem EncodedOpcode.lw (r1 r2 : Reg) : EncodedOpcode.Statement (.lw r1 r2) := by
  intro m; simp [encode, Instr.op, OpcodeMap.code]

theorem EncodedOpcode.movh (r1 : Reg) (imm16 : Imm16) : EncodedOpcode.Statement (.movh r1 imm16) := by
  intro m; simp [encode, Instr.op, OpcodeMap.code]

theorem EncodedOpcode.jmp (r1 : Reg) : EncodedOpcode.Statement (.jmp r1) := by
  intro m; simp [encode, Instr.op, OpcodeMap.code]

theorem EncodedOpcode.jz (r1 : Reg) : EncodedOpcode.Statement (.jz r1) := by
  intro m; simp [encode, Instr.op, OpcodeMap.code]

theorem EncodedOpcode.jnz (r1 : Reg) : EncodedOpcode.Statement (.jnz r1) := by
  intro m; simp [encode, Instr.op, OpcodeMap.code]

theorem EncodedOpcode.jmpi (imm26 : Imm26) : EncodedOpcode.Statement (.jmpi imm26) := by
  intro m; simp [encode, Instr.op, OpcodeMap.code]

theorem EncodedOpcode.jmpiz (imm26 : Imm26) : EncodedOpcode.Statement (.jmpiz imm26) := by
  intro m; simp [encode, Instr.op, OpcodeMap.code]

theorem EncodedOpcode.jmpinz (imm26 : Imm26) : EncodedOpcode.Statement (.jmpinz imm26) := by
  intro m; simp [encode, Instr.op, OpcodeMap.code]

theorem EncodedOpcode.read (r1 : Reg) : EncodedOpcode.Statement (.read r1) := by
  intro m; simp [encode, Instr.op, OpcodeMap.code]

theorem EncodedOpcode.draw (r1 r2 : Reg) : EncodedOpcode.Statement (.draw r1 r2) := by
  intro m; simp [encode, Instr.op, OpcodeMap.code]

theorem EncodedOpcode.clear : EncodedOpcode.Statement (.clear) := by
  intro m; simp [encode, Instr.op, OpcodeMap.code]

theorem EncodedFields.not (r1 r2 : Reg) : EncodedFields.Statement (.not r1 r2) := by
  intro m; simp [encode, Instr.op, Op.instr]

theorem EncodedFields.xor (r1 r2 r3 : Reg) : EncodedFields.Statement (.xor r1 r2 r3) := by
  intro m; simp [encode, Instr.op, Op.instr]

theorem EncodedFields.or (r1 r2 r3 : Reg) : EncodedFields.Statement (.or r1 r2 r3) := by
  intro m; simp [encode, Instr.op, Op.instr]

theorem EncodedFields.and (r1 r2 r3 : Reg) : EncodedFields.Statement (.and r1 r2 r3) := by
  intro m; simp [encode, Instr.op, Op.instr]

theorem EncodedFields.shl (r1 r2 : Reg) : EncodedFields.Statement (.shl r1 r2) := by
  intro m; simp [encode, Instr.op, Op.instr]

theorem EncodedFields.shr (r1 r2 : Reg) : EncodedFields.Statement (.shr r1 r2) := by
  intro m; simp [encode, Instr.op, Op.instr]

theorem EncodedFields.rotl (r1 r2 : Reg) : EncodedFields.Statement (.rotl r1 r2) := by
  intro m; simp [encode, Instr.op, Op.instr]

theorem EncodedFields.rotr (r1 r2 : Reg) : EncodedFields.Statement (.rotr r1 r2) := by
  intro m; simp [encode, Instr.op, Op.instr]

theorem EncodedFields.add (r1 r2 r3 : Reg) : EncodedFields.Statement (.add r1 r2 r3) := by
  intro m; simp [encode, Instr.op, Op.instr]

theorem EncodedFields.sub (r1 r2 r3 : Reg) : EncodedFields.Statement (.sub r1 r2 r3) := by
  intro m; simp [encode, Instr.op, Op.instr]

theorem EncodedFields.inc (r1 r2 : Reg) : EncodedFields.Statement (.inc r1 r2) := by
  intro m; simp [encode, Instr.op, Op.instr]

theorem EncodedFields.dec (r1 r2 : Reg) : EncodedFields.Statement (.dec r1 r2) := by
  intro m; simp [encode, Instr.op, Op.instr]

theorem EncodedFields.mul (r1 r2 r3 r4 : Reg) : EncodedFields.Statement (.mul r1 r2 r3 r4) := by
  intro m; simp [encode, Instr.op, Op.instr]

theorem EncodedFields.ori (r1 r2 : Reg) (imm16 : Imm16) : EncodedFields.Statement (.ori r1 r2 imm16) := by
  intro m; simp [encode, Instr.op, Op.instr]

theorem EncodedFields.andi (r1 r2 : Reg) (imm16 : Imm16) : EncodedFields.Statement (.andi r1 r2 imm16) := by
  intro m; simp [encode, Instr.op, Op.instr]

theorem EncodedFields.addi (r1 r2 : Reg) (imm16 : Imm16) : EncodedFields.Statement (.addi r1 r2 imm16) := by
  intro m; simp [encode, Instr.op, Op.instr]

theorem EncodedFields.mov (r1 r2 : Reg) : EncodedFields.Statement (.mov r1 r2) := by
  intro m; simp [encode, Instr.op, Op.instr]

theorem EncodedFields.sw (r1 r2 : Reg) : EncodedFields.Statement (.sw r1 r2) := by
  intro m; simp [encode, Instr.op, Op.instr]

theorem EncodedFields.lw (r1 r2 : Reg) : EncodedFields.Statement (.lw r1 r2) := by
  intro m; simp [encode, Instr.op, Op.instr]

theorem EncodedFields.movh (r1 : Reg) (imm16 : Imm16) : EncodedFields.Statement (.movh r1 imm16) := by
  intro m; simp [encode, Instr.op, Op.instr]

theorem EncodedFields.jmp (r1 : Reg) : EncodedFields.Statement (.jmp r1) := by
  intro m; simp [encode, Instr.op, Op.instr]

theorem EncodedFields.jz (r1 : Reg) : EncodedFields.Statement (.jz r1) := by
  intro m; simp [encode, Instr.op, Op.instr]

theorem EncodedFields.jnz (r1 : Reg) : EncodedFields.Statement (.jnz r1) := by
  intro m; simp [encode, Instr.op, Op.instr]

theorem EncodedFields.jmpi (imm26 : Imm26) : EncodedFields.Statement (.jmpi imm26) := by
  intro m; simp [encode, Instr.op, Op.instr]

theorem EncodedFields.jmpiz (imm26 : Imm26) : EncodedFields.Statement (.jmpiz imm26) := by
  intro m; simp [encode, Instr.op, Op.instr]

theorem EncodedFields.jmpinz (imm26 : Imm26) : EncodedFields.Statement (.jmpinz imm26) := by
  intro m; simp [encode, Instr.op, Op.instr]

theorem EncodedFields.read (r1 : Reg) : EncodedFields.Statement (.read r1) := by
  intro m; simp [encode, Instr.op, Op.instr]

theorem EncodedFields.draw (r1 r2 : Reg) : EncodedFields.Statement (.draw r1 r2) := by
  intro m; simp [encode, Instr.op, Op.instr]

theorem EncodedFields.clear : EncodedFields.Statement (.clear) := by
  intro m; rfl

end Sys2Proof.Laws
end

