-- ==== Sys2Proof/Tests/Slice0.lean ====
section
/-! SUPPORT. Tests by evaluation, each on one word or one step: ill-formed terms are refused, a word of every
operation decodes, the vectors of spec/95_test_vectors.md (named in each comment), and a witness for the
hypotheses of every statement. No statement rests on this file. -/

namespace Sys2Proof.Tests
open Sys2Proof Sys2Proof.Machine

/-! ### Ill-formed terms are refused -/

theorem test_opcodeMap_shared_value : ¬ ({ OpcodeMap.assumed with xor := 1 } : OpcodeMap).wf := by decide
theorem test_opcodeMap_assumed : OpcodeMap.assumed.wf := by decide
theorem test_memBytes_odd : ¬ memBytesWf 6 := by decide
theorem test_memBytes_zero : ¬ memBytesWf 0 := by decide
theorem test_memBytes_large : ¬ memBytesWf (2 ^ 32 + 4) := by decide
theorem test_memBytes_full : memBytesWf (2 ^ 32) := by decide
theorem test_config_shared_value :
    ¬ (Config.reference { OpcodeMap.assumed with xor := 1 } .fetchPC).wf := by decide
theorem test_config_reference : (Config.reference OpcodeMap.assumed .fetchPC).wf := by decide
theorem test_source_register_32 : checkSource ⟨.mov, [.reg 1, .reg 32]⟩ = false := by decide
theorem test_source_number_for_register : checkSource ⟨.mov, [.reg 1, .num 2]⟩ = false := by decide
theorem test_source_register_for_number : checkSource ⟨.movh, [.reg 1, .reg 2]⟩ = false := by decide
theorem test_source_imm16_large : checkSource ⟨.ori, [.reg 1, .reg 2, .num 0x10000]⟩ = false := by decide
theorem test_source_imm16_negative : checkSource ⟨.ori, [.reg 1, .reg 2, .num (-1)]⟩ = false := by decide
theorem test_source_addi_low : checkSource ⟨.addi, [.reg 1, .reg 2, .num (-32769)]⟩ = false := by decide
theorem test_source_addi_high : checkSource ⟨.addi, [.reg 1, .reg 2, .num 0x10000]⟩ = false := by decide
theorem test_source_target_misaligned : checkSource ⟨.jmpi, [.num 2]⟩ = false := by decide
theorem test_source_target_far : checkSource ⟨.jmpi, [.num (2 ^ 28)]⟩ = false := by decide
theorem test_source_label_unresolved : checkSource ⟨.jmpi, [.label "loop"]⟩ = false := by decide
theorem test_source_too_few : checkSource ⟨.add, [.reg 1, .reg 2]⟩ = false := by decide
theorem test_source_too_many : checkSource ⟨.clear, [.reg 1]⟩ = false := by decide
theorem test_names : registerNamed "r31" = some 31 ∧ registerNamed "pc" = some 30 ∧
    registerNamed "zero" = some 0 ∧ registerNamed "flags" = some 31 ∧ registerNamed "r32" = none := by decide

/-! ### Decoding: a word of every operation, cut as spec/30_encoding.md R73 draws it

The opcode numbers are those of OpcodeMap.assumed (notes/assumptions/1.md). Every second word has its ignored
bits at 1 (R72). -/

theorem test_decode_logic :
    decodeTableWord 32 0b000001_00001_00010_1111111111111111 = some (.not 1 2) ∧
    decodeTableWord 32 0b000010_00001_00010_00011_00000000000 = some (.xor 1 2 3) ∧
    decodeTableWord 32 0b000011_00001_00010_00011_11111111111 = some (.or 1 2 3) ∧
    decodeTableWord 32 0b000100_00001_00010_00011_00000000000 = some (.and 1 2 3) := by decide

theorem test_decode_shifts :
    decodeTableWord 32 0b000101_00001_00010_1111111111111111 = some (.shl 1 2) ∧
    decodeTableWord 32 0b000110_00001_00010_0000000000000000 = some (.shr 1 2) ∧
    decodeTableWord 32 0b000111_00001_00010_1111111111111111 = some (.rotl 1 2) ∧
    decodeTableWord 32 0b001000_00001_00010_0000000000000000 = some (.rotr 1 2) := by decide

theorem test_decode_arith :
    decodeTableWord 32 0b001001_00001_00010_00011_11111111111 = some (.add 1 2 3) ∧
    decodeTableWord 32 0b001010_00001_00010_00011_00000000000 = some (.sub 1 2 3) ∧
    decodeTableWord 32 0b001011_00001_00010_1111111111111111 = some (.inc 1 2) ∧
    decodeTableWord 32 0b001100_00001_00010_0000000000000000 = some (.dec 1 2) ∧
    decodeTableWord 32 0b001101_00001_00010_00011_00100_111111 = some (.mul 1 2 3 4) := by decide

theorem test_decode_immediates :
    decodeTableWord 32 0b001110_00001_00010_1000011101100101 = some (.ori 1 2 0x8765) ∧
    decodeTableWord 32 0b001111_00001_00010_1000011101100101 = some (.andi 1 2 0x8765) ∧
    decodeTableWord 32 0b010000_00001_00010_1000011101100101 = some (.addi 1 2 0x8765) := by decide

theorem test_decode_moves :
    decodeTableWord 32 0b010001_00001_00010_1111111111111111 = some (.mov 1 2) ∧
    decodeTableWord 32 0b010010_00001_00010_0000000000000000 = some (.sw 1 2) ∧
    decodeTableWord 32 0b010011_00001_00010_1111111111111111 = some (.lw 1 2) ∧
    decodeTableWord 32 0b010100_00001_00000_1000011101100101 = some (.movh 1 0x8765) := by decide

theorem test_decode_jumps :
    decodeTableWord 32 0b010101_00001_111111111111111111111 = some (.jmp 1) ∧
    decodeTableWord 32 0b010110_00001_000000000000000000000 = some (.jz 1) ∧
    decodeTableWord 32 0b010111_00001_111111111111111111111 = some (.jnz 1) ∧
    decodeTableWord 32 0b011000_10101010111100110111101111 = some (.jmpi 0x2ABCDEF) ∧
    decodeTableWord 32 0b011001_10101010111100110111101111 = some (.jmpiz 0x2ABCDEF) ∧
    decodeTableWord 32 0b011010_10101010111100110111101111 = some (.jmpinz 0x2ABCDEF) := by decide

theorem test_decode_io :
    decodeTableWord 32 0b011011_00001_111111111111111111111 = some (.read 1) ∧
    decodeTableWord 32 0b011100_00001_00010_0000000000000000 = some (.draw 1 2) ∧
    decodeTableWord 32 0b011101_11111111111111111111111111 = some .clear := by decide

theorem test_undefined_opcodes :
    decode OpcodeMap.assumed 0b000000_00001_00010_00011_00100_000000 = .undefinedOpcode 0 ∧
    decode OpcodeMap.assumed 0b011110_00000_00000_00000_00000_000000 = .undefinedOpcode 30 ∧
    decode OpcodeMap.assumed 0b111111_11111_11111_11111_11111_111111 = .undefinedOpcode 63 := by decide

/-- Too few bytes for a word are refused by name; the byte at the lowest address is the most significant. -/
theorem test_bytes : decodeBytes OpcodeMap.assumed [0x24, 0x22, 0x18] = .truncated [0x24, 0x22, 0x18] ∧
    decodeBytes OpcodeMap.assumed [0x24, 0x22, 0x18, 0, 7] = .decoded (.instr (.add 1 2 3)) [7] := by decide

/-- `ADD r1, r2, r3` is `OPC(ADD) : 0x0221800` (R83), here with OPC(ADD) = 9. -/
theorem test_encode_add : encode OpcodeMap.assumed (.add 1 2 3) = 0x24221800 := by decide

/-- Program P1 of spec/95_test_vectors.md, written with a label and HALT: its words at 0x00 to 0x14. -/
def program1 : List SrcStmt :=
  [⟨[], .line ⟨.addi, [.reg 1, .reg 0, .num 5]⟩⟩, ⟨[], .line ⟨.addi, [.reg 2, .reg 0, .num 0]⟩⟩,
   ⟨["loop"], .line ⟨.add, [.reg 2, .reg 2, .reg 1]⟩⟩, ⟨[], .line ⟨.dec, [.reg 1, .reg 1]⟩⟩,
   ⟨[], .line ⟨.jmpinz, [.label "loop"]⟩⟩, ⟨[], .pseudo (.halt 0)⟩]

theorem test_assemble_program1 : ((assembleProgram program1).map fun is => is.map (encode OpcodeMap.assumed)) =
    some [0x40200005, 0x40400000, 0x24420800, 0x30210000, 0x68000002, 0x60000005] := by decide

theorem test_assemble_label_twice :
    assembleProgram [⟨["a"], .pseudo .nop⟩, ⟨["a"], .pseudo .nop⟩] = none := by decide

theorem test_assemble_label_missing : assembleProgram [⟨[], .line ⟨.jmpi, [.label "a"]⟩⟩] = none := by decide

/-- A label at the place of an imm16 is refused (notes/assumptions/12.md). -/
theorem test_assemble_label_imm16 :
    assembleProgram [⟨["a"], .line ⟨.addi, [.reg 1, .reg 0, .label "a"]⟩⟩] = none := by decide

/-! ### One step on a small state -/

/-- The reference configuration of R10 with a given `PC_SEQ_BASE`. -/
def machine (base : PcSeqBase) : State := State.resetWith (Config.reference OpcodeMap.assumed base) []

/-- A state with these register values. -/
def regs (values : List (Reg × Word)) : State :=
  values.foldl (fun s v => s.setX v.1 v.2) (machine .fetchPC)

/-- The state an instruction leaves. -/
def ran (i : Instr) (s : State) : State :=
  match exec i s with
  | .next t => t
  | _ => s

/-- The next state of an outcome, if it has one. -/
def nextOf : Host.Outcome State Fault Refusal → Option State
  | .next t => some t
  | _ => none

/-- The named register and Z after an instruction. -/
def result (i : Instr) (s : State) (r : Reg) : Word × Bool := ((ran i s).x r, (ran i s).z)

/-- V-A3. -/
theorem test_not : result (.not 1 2) (regs [(2, 0x0F0F0000)]) 1 = (0xF0F0FFFF, false) := by decide
/-- V-A2. -/
theorem test_not_zero : result (.not 1 2) (regs [(2, 0xFFFFFFFF)]) 1 = (0, true) := by decide
/-- V-A4. -/
theorem test_xor : result (.xor 1 2 3) (regs [(2, 0xFF00FF00), (3, 0x0FF00FF0)]) 1 = (0xF0F0F0F0, false) := by decide
/-- V-R8: a flag update clears bits 31 to 1 of slot 31. -/
theorem test_xor_setz : (ran (.xor 0 0 0) (regs [(31, 0xFFFF0000)])).x 31 = 1 := by decide
/-- V-A7. -/
theorem test_or : result (.or 1 2 3) (regs [(2, 0xFF00FF00), (3, 0x0FF00FF0)]) 1 = (0xFFF0FFF0, false) := by decide
/-- V-A8. -/
theorem test_and : result (.and 1 2 3) (regs [(2, 0xFF00FF00), (3, 0x0FF00FF0)]) 1 = (0x0F000F00, false) := by decide
/-- V-A9. -/
theorem test_and_zero : result (.and 1 2 3) (regs [(2, 0xF0F0F0F0), (3, 0x0F0F0F0F)]) 1 = (0, true) := by decide
/-- V-A10. -/
theorem test_shl : result (.shl 1 2) (regs [(2, 0x80000001)]) 1 = (2, false) := by decide
/-- V-A11. -/
theorem test_shl_zero : result (.shl 1 2) (regs [(2, 0x80000000)]) 1 = (0, true) := by decide
/-- V-A13. -/
theorem test_shr : result (.shr 1 2) (regs [(2, 0x80000001)]) 1 = (0x40000000, false) := by decide
/-- V-A14. -/
theorem test_shr_zero : result (.shr 1 2) (regs [(2, 1)]) 1 = (0, true) := by decide
/-- V-A16. -/
theorem test_rotl : result (.rotl 1 2) (regs [(2, 0x80000001)]) 1 = (3, false) := by decide
/-- V-A19. -/
theorem test_rotr : result (.rotr 1 2) (regs [(2, 0x80000001)]) 1 = (0xC0000000, false) := by decide
/-- V-A22. -/
theorem test_add_wraps : result (.add 1 2 3) (regs [(2, 0xFFFFFFFF), (3, 1)]) 1 = (0, true) := by decide
/-- V-R3: the flag update comes after the destination write. -/
theorem test_add_flags : (ran (.add 31 2 3) (regs [(2, 1), (3, 0xFFFFFFFF)])).x 31 = 1 := by decide
/-- V-A25. -/
theorem test_sub_borrows : result (.sub 1 2 3) (regs [(2, 0), (3, 1)]) 1 = (0xFFFFFFFF, false) := by decide
/-- V-A27. -/
theorem test_sub : result (.sub 1 2 3) (regs [(2, 3), (3, 5)]) 1 = (0xFFFFFFFE, false) := by decide
/-- V-A28. -/
theorem test_inc : result (.inc 1 2) (regs [(2, 0xFFFFFFFF)]) 1 = (0, true) := by decide
/-- V-A30. -/
theorem test_dec : result (.dec 1 2) (regs [(2, 0)]) 1 = (0xFFFFFFFF, false) := by decide
/-- V-M1. -/
theorem test_mul : ((ran (.mul 1 2 3 4) (regs [(3, 0xFFFFFFFF), (4, 2)])).x 1,
    (ran (.mul 1 2 3 4) (regs [(3, 0xFFFFFFFF), (4, 2)])).x 2) = (0xFFFFFFFE, 1) := by decide
/-- V-M5: the high word is written last. -/
theorem test_mul_same_destination : result (.mul 1 1 3 4) (regs [(3, 0xFFFFFFFF), (4, 2)]) 1 = (1, false) := by decide
/-- V-A34. -/
theorem test_ori : result (.ori 1 2 0xFFFF) (regs [(2, 0xFFFF0000)]) 1 = (0xFFFFFFFF, false) := by decide
/-- V-A36. -/
theorem test_andi : result (.andi 1 2 0xFFFF) (regs [(2, 0xFFFF0000)]) 1 = (0, true) := by decide
/-- V-A37. -/
theorem test_addi : result (.addi 1 2 0xFFFF) (regs [(2, 5)]) 1 = (4, false) := by decide
/-- V-R1: slot 0 stays 0, Z is set from the computed 5. -/
theorem test_addi_discarded : result (.addi 0 0 5) (regs [(31, 1)]) 0 = (0, false) := by decide
/-- V-D1: no flag update. -/
theorem test_mov : result (.mov 1 2) (regs [(2, 0), (31, 1)]) 1 = (0, true) := by decide
/-- V-R2. -/
theorem test_mov_reads_pc : (ran (.mov 1 30) (regs [(30, 0x40)])).x 1 = 0x40 := by decide
/-- V-D4. -/
theorem test_sw : [0x400, 0x401, 0x402, 0x403].map (ran (.sw 1 2) (regs [(1, 0x100), (2, 0xDEADBEEF)])).byte =
    [0xDE, 0xAD, 0xBE, 0xEF] := by decide
/-- V-D9: no wrap. -/
theorem test_sw_fault : (ran (.sw 1 2) (regs [(1, 0xFFFFFFFF), (2, 1), (30, 0x20)])).status = .memFault .store 0x3FFFFFFFC 0x20 := by decide
/-- V-D12: the address is the old r1. -/
theorem test_lw : (ran (.lw 1 1) { regs [(1, 0x100)] with mem := [(0x403, 7)] }).x 1 = 7 := by decide
/-- V-D8. -/
theorem test_lw_fault : (ran (.lw 3 1) (regs [(1, 0x40000000), (30, 0x20)])).status = .memFault .load 0x100000000 0x20 := by decide
/-- V-D2. -/
theorem test_movh : (ran (.movh 1 0x1234) (regs [(1, 0xFFFFFFFF)])).x 1 = 0x12340000 := by decide
/-- V-C1. -/
theorem test_jmp : (ran (.jmp 7) (regs [(7, 0x200), (30, 0x10)])).pc = 0x200 := by decide
/-- V-C2. -/
theorem test_jmp_self : (ran (.jmp 30) (regs [(30, 0x10)])).pc = 0x10 := by decide
/-- V-C3. -/
theorem test_jz : (ran (.jz 7) (regs [(7, 0x200), (31, 1), (30, 0x10)])).pc = 0x200 := by decide
/-- V-C4. -/
theorem test_jz_bit0 : (ran (.jz 7) (regs [(7, 0x200), (31, 0xFFFFFFFE), (30, 0x10)])).pc = 0x14 := by decide
/-- V-C5. -/
theorem test_jnz : (ran (.jnz 7) (regs [(7, 0x200), (30, 0x10)])).pc = 0x200 := by decide
/-- V-C6. -/
theorem test_jnz_untaken : (ran (.jnz 7) (regs [(7, 0x200), (31, 3), (30, 0x10)])).pc = 0x14 := by decide
/-- V-C9. -/
theorem test_jmpi : (ran (.jmpi 0x10) (regs [(30, 0x20)])).pc = 0x40 := by decide
/-- V-C7. -/
theorem test_jmpiz : (ran (.jmpiz 0x40) (regs [(31, 1), (30, 0x20)])).pc = 0x100 := by decide
/-- V-C7. -/
theorem test_jmpiz_untaken : (ran (.jmpiz 0x40) (regs [(30, 0x20)])).pc = 0x24 := by decide
/-- V-C10. -/
theorem test_jmpinz : (ran (.jmpinz 0x3FFFFFF) (regs [(30, 0x20)])).pc = 0x0FFFFFFC := by decide
/-- V-C8. -/
theorem test_jmpinz_untaken : (ran (.jmpinz 0x40) (regs [(31, 1), (30, 0x20)])).pc = 0x24 := by decide

/-- V-IO2, with one input value given. -/
theorem test_read : (ran (.read 9) ((machine .fetchPC).withConfig
    { (machine .fetchPC).config with input := .free [0xCAFEBABE] })).x 9 = 0xCAFEBABE := by decide
/-- V-IO3: the value is taken though slot 0 keeps none. -/
theorem test_read_r0 : (ran (.read 0) (machine .fetchPC)).inputCount = 1 ∧
    (ran (.read 0) (machine .fetchPC)).x 0 = 0 := by decide
/-- V-IO4. -/
theorem test_draw_256 :
    (ran (.draw 1 2) { regs [(1, 0x1234), (2, 0xAAFF8000)] with drawCount := 255 }).events =
      [.setPixel 0x34 0x12 0xFF8000, .present] := by decide
/-- V-IO5. -/
theorem test_draw : (ran (.draw 1 2) (regs [(1, 0x1234), (2, 0xAAFF8000)])).events =
    [.setPixel 0x34 0x12 0xFF8000] := by decide
/-- V-IO7. -/
theorem test_clear : (ran .clear { machine .fetchPC with drawCount := 7 }).events = [.clearToBlack, .present] ∧
    (ran .clear { machine .fetchPC with drawCount := 7 }).drawCount = 7 := by decide

/-- V-R6: what a MOV to the PC slot does under the two values of `PC_SEQ_BASE`. -/
theorem test_mov_to_pc :
    (ran (.mov 30 5) (((machine .fetchPC).setX 5 0x100).setX 30 0x40)).pc = 0x44 ∧
    (ran (.mov 30 5) (((machine .r30AfterExecute).setX 5 0x100).setX 30 0x40)).pc = 0x104 := by decide

/-- V-F1: an undefined opcode, here 0x3F. -/
theorem test_decode_fault : (nextOf (step ((regs [(30, 0x30)]).withFetchWord 32 0xFC000000))).map (·.status) =
    some (.decodeFault 0x3F 0x30) := by decide
/-- V-F3: a fetch at C. -/
theorem test_fetch_fault : (nextOf (step (regs [(30, 0x100000)]))).map (·.status) =
    some (.memFault .fetch 0x100000 0x100000) := by decide
/-- V-C13: a fetch at a misaligned PC, and under `Fault` its fault. -/
theorem test_misaligned_fetch :
    (nextOf (step ((regs [(30, 2)]).withFetchWord 32 0x24221800))).map (·.status) = some .running ∧
    (nextOf (step ((regs [(30, 2)]).withConfig
      { (machine .fetchPC).config with misalignedFetch := .fault }))).map (·.status) =
        some (.memFault .fetch 2 2) := by decide
/-- V-F5: a request raised after a fault changes nothing, and no step follows. -/
theorem test_terminal : step (State.requestCancel { machine .fetchPC with status := .decodeFault 0 0 }) =
    .fault (.stopped (.decodeFault 0 0)) := by rfl
/-- V-R10. -/
theorem test_reset : State.reset.pc = 0 ∧ State.reset.z = false ∧ State.reset.drawCount = 0 ∧
    State.reset.status = .running ∧ State.reset.regs.toList.all (· == 0) = true := by decide
/-- The first step after reset runs the word placed at the PC: `ADDI r1, r0, 5` of program P1. -/
theorem test_withFetchWord : (nextOf (step (State.reset.withFetchWord 32 0x40200005))).map (·.x 1) = some 5 := by
  decide

/-! ### Witnesses: each statement's hypotheses hold somewhere, each clause at its boundary -/

/-- For every statement over an injective opcode map (DecodeInvertsEncode, ExampleWordsDecode and others). -/
theorem witness_injective_map : OpcodeMap.assumed.wf ∧ (Config.reference OpcodeMap.assumed .fetchPC).wf := by decide

theorem witness_IgnoredBitsNeverMatter :
    dispatch OpcodeMap.assumed (fields 0x74000000).opcode = some .clear ∧
    (0x74000000 : Word) &&& Op.usedBits .clear = 0x77FFFFFF &&& Op.usedBits .clear := by decide

theorem witness_UndefinedOpcodesAreRejected :
    (fields 0x07FFFFFF).opcode = OpcodeMap.assumed.code .not ∧
    (fields 0x77FFFFFF).opcode = OpcodeMap.assumed.code .clear ∧
    (∀ op, (fields 0x03FFFFFF).opcode ≠ OpcodeMap.assumed.code op) ∧
    (∀ op, (fields 0x78000000).opcode ≠ OpcodeMap.assumed.code op) := by
  refine ⟨by decide, by decide, fun op => ?_, fun op => ?_⟩ <;> cases op <;> decide

theorem witness_RegisterFileReadsAndWrites :
    ((machine .fetchPC).setX 31 (BitVec.ofNat 32 (2 ^ 32 + 7))).x 31 = 7 ∧
    (machine .fetchPC).setX 0 (BitVec.ofNat 32 7) = machine .fetchPC ∧ (31 : Reg) ≠ 0 ∧ (30 : Reg) ≠ 31 := by
  decide

theorem witness_SetZWritesAllOfSlot31 : ((machine .fetchPC).setZ 0).x 31 = 1 ∧
    ((machine .fetchPC).setZ 0x80000000).x 31 = 0 ∧ (1 : Reg) ≠ Reg.flags := by decide

theorem witness_WordTransfersAreBigEndian : 0xFFFFC + 4 ≤ (machine .fetchPC).config.memBytes ∧
    ¬ 0xFFFFD + 4 ≤ (machine .fetchPC).config.memBytes := by decide

/-- The effect of a one-destination instruction (AluEffect), for the statements of the ALU instructions: a
destination that is neither slot 0, the PC nor the flags, and each of those. -/
theorem witness_alu_destinations : (1 : Reg) ≠ 0 ∧ (1 : Reg) ≠ Reg.pc ∧ (1 : Reg) ≠ Reg.flags ∧
    (ran (.inc 1 0) (machine .fetchPC)).x 1 = 1 ∧ (ran (.inc 0 0) (machine .fetchPC)).x 0 = 0 ∧
    (ran (.inc 31 0) (machine .fetchPC)).x 31 = 0 ∧ (ran (.inc 30 0) (machine .fetchPC)).pc = 4 := by decide

theorem witness_MultiplyToTwoWords : 0x10000 * 0x10000 =
    ((regs [(3, 0x10000)]).x 3).toNat * ((regs [(3, 0x10000)]).x 3).toNat ∧
    (1 : Reg) ≠ 0 ∧ (1 : Reg) ≠ 2 ∧ (2 : Reg) ≠ Reg.pc ∧ (2 : Reg) ≠ Reg.flags := by decide

theorem witness_AddImmediate : 0xFFFF8005 = ((regs [(2, 5)]).x 2).toNat + ((0x8000 : Imm16).toNat +
    (if 0x8000 ≤ (0x8000 : Imm16).toNat then 0xFFFF0000 else 0)) := by decide

/-- The last word in memory, and the first index above it. -/
theorem witness_StoreWord :
    byteAddress ((regs [(1, 0x3FFFF)]).x 1) + 4 ≤ (regs [(1, 0x3FFFF)]).config.memBytes ∧
    ¬ byteAddress ((regs [(1, 0x40000)]).x 1) + 4 ≤ (regs [(1, 0x40000)]).config.memBytes ∧
    (ran (.sw 1 2) (regs [(1, 0x3FFFF), (2, 1)])).byte 0xFFFFF = 1 := by decide

theorem witness_LoadWord :
    4 * ((regs [(2, 0x3FFFF)]).x 2).toNat + 4 ≤ (regs [(2, 0x3FFFF)]).config.memBytes ∧
    ¬ 4 * ((regs [(2, 0x40000)]).x 2).toNat + 4 ≤ (regs [(2, 0x40000)]).config.memBytes := by decide

/-- LW, MOVH and READ under parameters that update Z. -/
theorem witness_flag_parameters : (ran (.movh 1 0) ((machine .fetchPC).withConfig
    { (machine .fetchPC).config with zfMovh := true })).x 31 = 1 ∧
    (ran (.movh 1 0) (machine .fetchPC)).x 31 = 0 := by decide

/-- The state after the store is one in which the load gives the value back. -/
theorem witness_StoreThenLoadRoundTrips : byteAddress ((regs [(1, 0x100), (2, 9)]).x 1) + 4 ≤
      (regs [(1, 0x100), (2, 9)]).config.memBytes ∧
    (ran (.sw 1 2) (regs [(1, 0x100), (2, 9)])).x 1 = (regs [(1, 0x100), (2, 9)]).x 1 ∧
    (ran (.sw 1 2) (regs [(1, 0x100), (2, 9)])).config = (regs [(1, 0x100), (2, 9)]).config ∧
    (ran (.lw 3 1) (ran (.sw 1 2) (regs [(1, 0x100), (2, 9)]))).x 3 = 9 := by decide

/-- A store of INC r9, r9 at the next instruction's address; and an SW r0, r2 at address 0, which overwrites its own
word with INC r9, r9. -/
theorem witness_StoreIsSeenByNextFetch :
    (regs [(1, 1), (2, 0x2D290000)]).status = .running ∧
    (regs [(1, 1), (2, 0x2D290000)]).cancelRequested = false ∧
    byteAddress ((regs [(1, 1), (2, 0x2D290000)]).x 1) = ((regs [(1, 1), (2, 0x2D290000)]).pc + 4).toNat ∧
    byteAddress ((regs [(1, 1), (2, 0x2D290000)]).x 1) + 4 ≤ (machine .fetchPC).config.memBytes ∧
    decode (machine .fetchPC).config.opc ((regs [(1, 1), (2, 0x2D290000)]).x 2) = .instr (.inc 9 9) ∧
    ((regs [(2, 0x2D290000)]).withFetchWord 32 0x48020000).status = .running ∧
    ((regs [(2, 0x2D290000)]).withFetchWord 32 0x48020000).cancelRequested = false ∧
    ((regs [(2, 0x2D290000)]).withFetchWord 32 0x48020000).mem.word 0 = 0x48020000 ∧
    decode (machine .fetchPC).config.opc 0x48020000 = .instr (.sw 0 2) ∧
    byteAddress ((regs [(2, 0x2D290000)]).x 0) = (regs [(2, 0x2D290000)]).pc.toNat := by decide

/-- The state before such a store fetches the SW, the state after it with the PC set back fetches the INC. -/
theorem witness_StoreIsSeenByNextFetch_own :
    ((regs [(2, 0x2D290000)]).withFetchWord 32 0x48020000).fetch = .ok 0x48020000 ∧
    (State.setPc (ran (.sw 0 2) ((regs [(2, 0x2D290000)]).withFetchWord 32 0x48020000)) 0).fetch =
      .ok 0x2D290000 := ⟨rfl, rfl⟩

theorem witness_ImmediateTargetJumps : (0x0FFFFFFC : Word).toNat = (0x3FFFFFF : Imm26).toNat * 4 ∧
    (0 : Word).toNat = (0 : Imm26).toNat * 4 := by decide

/-- A target at C, and a misaligned one under `Fault`. -/
theorem witness_TargetsAreCheckedAtTheirFetch : Instr.op (.jmp 7) ∈ [Op.jmp, .jz, .jnz, .jmpi, .jmpiz, .jmpinz] ∧
    (regs [(7, 0x100000)]).status = .running ∧ (regs [(7, 0x100000)]).cancelRequested = false ∧
    ¬ (ran (.jmp 7) (regs [(7, 0x100000)])).pc.toNat + 4 ≤ (machine .fetchPC).config.memBytes ∧
    (ran (.jmp 7) (regs [(7, 2)])).pc.toNat % 4 ≠ 0 ∧
    ((machine .fetchPC).withConfig { (machine .fetchPC).config with
      misalignedFetch := .fault }).config.misalignedFetch = .fault := by decide

theorem witness_ReadTakesOneInput : (machine .fetchPC).config.input = .alwaysZero ∧
    State.reset.config.input = .free [] ∧
    InputSource.value (.free [1, 2]) 1 = 2 ∧ 1 < [1, 2].length := by decide

/-- DRAW as the 256th and as the 255th. -/
theorem witness_DrawPlotsOnePixel : (255 + 1) % 256 = 0 ∧ (254 + 1) % 256 ≠ 0 ∧
    (ran (.draw 0 0) { machine .fetchPC with drawCount := 254 }).events = [.setPixel 0 0 0] := by decide

theorem witness_PresentsAreCounted :
    runInstrs [.draw 0 0, .clear] { machine .fetchPC with drawCount := 255 } =
      some (ran .clear (ran (.draw 0 0) { machine .fetchPC with drawCount := 255 })) := by decide

/-- For the statements about every instruction that has a next state (OnlyNamedInstructionsActOutside,
OnlyDestinationsChange, MisalignedPcHasThreeSources, ParametersMatterOnlyWhereNamed). -/
theorem witness_every_instruction :
    exec (.add 1 2 3) (regs [(2, 5), (3, 7)]) = .next (ran (.add 1 2 3) (regs [(2, 5), (3, 7)])) ∧
    (4 : Reg) ∉ dests (.add 1 2 3) ∧ Reg.pc ∉ dests (.add 1 2 3) ∧
    updatesZ (machine .fetchPC).config .add = true ∧ updatesZ (machine .fetchPC).config .lw = false ∧
    (ran (.add 1 2 3) (regs [(2, 5), (3, 7)])).status = .running ∧
    (regs [(2, 5), (3, 7)]).pc.toNat % 4 = 0 ∧
    Instr.op (.add 1 2 3) ∉ [Op.jmp, .jz, .jnz] ∧ Instr.op (.add 1 2 3) ∉ [Op.lw, .sw] ∧
    Instr.op (.add 1 2 3) ≠ .movh ∧ Instr.op (.add 1 2 3) ≠ .read := by
  refine ⟨rfl, ?_⟩; decide

/-- The PC at the top of the address space, for an untaken jump and for CLEAR. -/
theorem witness_MisalignedPcHasThreeSources : (regs [(30, 0xFFFFFFFC)]).pc = 0xFFFFFFFC ∧
    (regs [(30, 0xFFFFFFFC)]).status = .running ∧ Reg.pc ∉ dests (.jz 7) ∧
    takesJump (regs [(30, 0xFFFFFFFC)]) (.jz 7) = false ∧ takesJump (regs [(31, 1)]) (.jz 7) = true ∧
    (ran (.jz 7) (regs [(30, 0xFFFFFFFC)])).pc = 0 ∧ (ran .clear (regs [(30, 0xFFFFFFFC)])).pc = 0 := by decide

/-- A destination r30 under each value of the parameter, and a written value 0xFFFFFFFC, after which the sum wraps. -/
theorem witness_WritesToThePcSlot : Reg.pc ∈ dests (.not 30 5) ∧ Reg.pc ∈ dests (.mul 1 30 3 4) ∧
    (machine .fetchPC).config.pcSeqBase = .fetchPC ∧ (machine .fetchPC).status = .running ∧
    (machine .r30AfterExecute).config.pcSeqBase = .r30AfterExecute ∧
    (machine .notTold).config.pcSeqBase = .notTold ∧
    writtenToPc ((machine .r30AfterExecute).setX 5 3) (.not 30 5) = 0xFFFFFFFC ∧
    (ran (.not 30 5) ((machine .r30AfterExecute).setX 5 3)).pc = 0 := by decide

/-- The last fetchable address, with and without a request. -/
theorem witness_StepRunsTheDecodedInstruction :
    (regs [(30, 0xFFFFC)]).status = .running ∧ 0xFFFFC = (regs [(30, 0xFFFFC)]).pc.toNat ∧
    0xFFFFC + 4 ≤ (regs [(30, 0xFFFFC)]).config.memBytes ∧
    decode OpcodeMap.assumed (wordOfBytes
      (((regs [(30, 0xFFFFC)]).withFetchWord 32 0x24221800).byte 0xFFFFC)
      (((regs [(30, 0xFFFFC)]).withFetchWord 32 0x24221800).byte 0xFFFFD)
      (((regs [(30, 0xFFFFC)]).withFetchWord 32 0x24221800).byte 0xFFFFE)
      (((regs [(30, 0xFFFFC)]).withFetchWord 32 0x24221800).byte 0xFFFFF)) = .instr (.add 1 2 3) ∧
    (regs [(30, 0xFFFFC)]).cancelRequested = false ∧
    (regs [(30, 0xFFFFC)]).requestCancel.cancelRequested = true := by decide

/-- A misaligned PC under `Fault` and under `ByteFetch`, the last address in range and the first out of it. -/
theorem witness_FetchAtThePc : 2 = (regs [(30, 2)]).pc.toNat ∧ 2 % 4 ≠ 0 ∧
    (machine .fetchPC).config.misalignedFetch = .byteFetch ∧
    0xFFFFC = (regs [(30, 0xFFFFC)]).pc.toNat ∧ 0xFFFFC + 4 ≤ (machine .fetchPC).config.memBytes ∧
    0xFFFFD = (regs [(30, 0xFFFFD)]).pc.toNat ∧ ¬ 0xFFFFD + 4 ≤ (machine .fetchPC).config.memBytes := by decide

theorem witness_FetchFaultStep : (regs [(30, 0x100000)]).status = .running ∧
    (regs [(30, 0x100000)]).cancelRequested = false ∧
    ¬ (regs [(30, 0x100000)]).pc.toNat + 4 ≤ (regs [(30, 0x100000)]).config.memBytes := by decide

/-- Memory that was never written holds the zero word, whose opcode 0 no operation has here (V-F2). -/
theorem witness_DecodeFaultStep : (machine .fetchPC).fetch = .ok 0 ∧ (machine .fetchPC).status = .running ∧
    (machine .fetchPC).cancelRequested = false ∧
    ∀ op, (machine .fetchPC).config.opc.code op ≠ (0 : Word).extractLsb' 26 6 := by
  refine ⟨rfl, rfl, rfl, fun op => ?_⟩; cases op <;> decide

theorem witness_OnlyRunningHasANextStep : (machine .fetchPC).status = .running ∧
    (machine .fetchPC).cancel.status ≠ .running := by decide

theorem witness_CancellationAtABoundary : (machine .fetchPC).requestCancel.status = .running ∧
    (machine .fetchPC).requestCancel.cancelRequested = true ∧ (machine .fetchPC).cancelRequested = false ∧
    nextOf (step (machine .fetchPC)) = some ((machine .fetchPC).takeFault (.decodeFault 0 0)) := by decide

/-- A faulting step of each kind (FaultsArePrecise, FaultsComeFromTheTable): an undefined opcode, a fetch at C,
a load and a store beyond memory. -/
theorem witness_faults :
    step (machine .fetchPC) = .next ((machine .fetchPC).takeFault (.decodeFault 0 0)) ∧
    step (regs [(30, 0x100000)]) =
      .next ((regs [(30, 0x100000)]).takeFault (.memFault .fetch 0x100000 0x100000)) ∧
    step ((regs [(1, 0x40000)]).withFetchWord 32 0x4C410000) =
      .next (((regs [(1, 0x40000)]).withFetchWord 32 0x4C410000).takeFault (.memFault .load 0x100000 0)) ∧
    step ((regs [(1, 0x40000)]).withFetchWord 32 0x48220000) =
      .next (((regs [(1, 0x40000)]).withFetchWord 32 0x48220000).takeFault (.memFault .store 0x100000 0)) := by
  refine ⟨rfl, rfl, rfl, rfl⟩

/-- JMPI 0 at address 0. -/
theorem witness_HaltLoopsInPlace : AtHalt ((machine .fetchPC).withFetchWord 32 0x60000000) ∧
    ((machine .fetchPC).withFetchWord 32 0x60000000).status = .running ∧
    ((machine .fetchPC).withFetchWord 32 0x60000000).cancelRequested = false :=
  ⟨⟨0x60000000, 0, rfl, by decide, by decide⟩, rfl, rfl⟩

/-- A run of two steps. -/
theorem witness_RunsOnlyAppend :
    nextOf (Sys2Proof.core.run 2 ((machine .fetchPC).withFetchWord 32 0x70000000)) =
      some ((ran (.draw 0 0) ((machine .fetchPC).withFetchWord 32 0x70000000)).takeFault (.decodeFault 0 4)) := by
  decide

/-- An image that just fits a memory of four bytes, and one that does not. -/
theorem witness_ProcessStart :
    [1, 2, 3, 4].length ≤ ({ Config.reference OpcodeMap.assumed .fetchPC with memBytes := 4 } : Config).memBytes ∧
    ¬ [1, 2, 3, 4, 5].length ≤
      ({ Config.reference OpcodeMap.assumed .fetchPC with memBytes := 4 } : Config).memBytes ∧
    State.boot (Config.reference OpcodeMap.assumed .fetchPC) [] = some (machine .fetchPC) := by decide

/-- A state of the invariant from which a step goes on. -/
theorem witness_StepKeepsTheInvariant : (machine .fetchPC).Inv ∧
    nextOf (step (machine .fetchPC)) = some ((machine .fetchPC).takeFault (.decodeFault 0 0)) :=
  ⟨⟨by decide, by decide, by decide, by decide, by decide, trivial⟩, by decide⟩

theorem witness_FetchWordIsRunNext : State.reset.status = .running ∧ State.reset.cancelRequested = false ∧
    0x40200005 < 2 ^ 32 ∧ State.reset.pc.toNat + 4 ≤ State.reset.config.memBytes ∧
    State.reset.pc.toNat % 4 = 0 ∧
    decode State.reset.config.opc (BitVec.ofNat 32 0x40200005) = .instr (.addi 1 0 5) := by decide

theorem witness_PseudoInstructionEffects : (machine .fetchPC).status = .running ∧
    target26 0 = (machine .fetchPC).pc ∧ (1 : Reg) ≠ 0 ∧ (1 : Reg) ≠ Reg.pc ∧ (1 : Reg) ≠ Reg.flags := by decide

/-- The last target, and the two ends of ADDI's signed range. -/
theorem witness_AssembledOperands : 0x0FFFFFFC % 4 = 0 ∧ 0x0FFFFFFC < 2 ^ 28 ∧
    assemble ⟨.jmpi, [.num 0x0FFFFFFC]⟩ = some (.jmpi 0x3FFFFFF) ∧
    [("f", 0x0FFFFFFC)].lookup "f" = some 0x0FFFFFFC ∧
    assemble ⟨.addi, [.reg 31, .reg 0, .num (-32768)]⟩ = some (.addi 31 0 0x8000) ∧
    assemble ⟨.addi, [.reg 31, .reg 0, .num 32767]⟩ = some (.addi 31 0 0x7FFF) := by decide

theorem witness_SignBitIdioms : (machine .fetchPC).status = .running ∧ (2 : Reg) ≠ 0 ∧ (2 : Reg) ≠ Reg.pc ∧
    (2 : Reg) ≠ Reg.flags ∧ (3 : Reg) ≠ 0 ∧ (3 : Reg) ≠ Reg.pc ∧ (3 : Reg) ≠ Reg.flags ∧ (1 : Reg) ≠ 3 ∧
    (1 : Reg) ≠ Reg.pc ∧ (1 : Reg) ≠ Reg.flags := by decide

theorem witness_CallIdiomReturns : (machine .fetchPC).status = .running ∧
    (regs [(29, 12)]).x 29 = (machine .fetchPC).pc + 12 := by decide

end Sys2Proof.Tests
end

section
/-! SUPPORT AND PROOFS for the statements of the state family: what every step keeps, what an instruction changes,
process start. Everything about a step goes through `NextOf` (what an instruction can do) and `StepNext` (what a step
can do). -/

namespace Sys2Proof.Machine

/-! ### The register file -/

theorem samePorts_setX (s : State) (i : Reg) (v : Word) : SamePorts s (s.setX i v) :=
  ⟨by simp, by simp, by simp⟩

theorem sameRun_setX (s : State) (i : Reg) (v : Word) : SameRun s (s.setX i v) :=
  ⟨by simp, by simp, by simp, by simp⟩

theorem sameMemory_setX (s : State) (i : Reg) (v : Word) : SameMemory s (s.setX i v) :=
  sameMemory_of_mem (by simp)

/-- Settles O6: the read-after-write law `x_setX` and the frame of a register write. -/
theorem registerFileReadsAndWrites : Obligations.RegisterFileReadsAndWrites := by
  intro s i n
  refine ⟨s.x_zero, ?_, fun hi => ?_, fun j hj => s.x_setX_of_ne hj _,
    sameMemory_setX s i _, samePorts_setX s i _, sameRun_setX s i _⟩
  · rintro rfl
    exact s.setX_zero _
  · rw [s.x_setX_self hi, BitVec.toNat_ofNat]

/-- Settles O7: `setZ` is a write of `flagsWord` to slot 31, so its frame is that of a register write. -/
theorem setZWritesAllOfSlot31 : Obligations.SetZWritesAllOfSlot31 := by
  intro s v
  have hflags : (s.setZ v).x Reg.flags = flagsWord v := by simp [State.x_setZ]
  refine ⟨hflags, z_of_flags hflags, fun i hi => ?_, sameMemory_setX s _ _, samePorts_setX s _ _,
    sameRun_setX s _ _⟩
  rw [State.x_setZ, if_neg hi]

theorem flagsWord_zero_or_one (v : Word) : flagsWord v = 0 ∨ flagsWord v = 1 := by
  unfold flagsWord
  split
  · exact .inr rfl
  · exact .inl rfl

/-! ### The word stored in slot 0

`State.x` reads 0 from slot 0 whatever it stores, so R24 needs the stored word followed on its own. -/

@[simp] theorem State.regs_emit (s : State) (e : Event) : (s.emit e).regs = s.regs := rfl
@[simp] theorem State.regs_countDraw (s : State) : s.countDraw.regs = s.regs := rfl
@[simp] theorem State.regs_tookInput (s : State) : s.tookInput.regs = s.regs := rfl
@[simp] theorem State.regs_takeFault (s : State) (r : Status) : (s.takeFault r).regs = s.regs := rfl
@[simp] theorem State.regs_cancel (s : State) : s.cancel.regs = s.regs := rfl
@[simp] theorem State.regs_polled (s : State) : s.polled.regs = s.regs := by unfold State.polled; split <;> rfl

/-- No register write reaches the word stored in slot 0 (R22). -/
@[simp] theorem State.stored0_setX (s : State) (i : Reg) (v : Word) : (s.setX i v).regs[0] = s.regs[0] := by
  unfold State.setX
  split
  · rfl
  · next h =>
    have hi : i.toNat ≠ 0 := fun h0 => h (BitVec.eq_of_toNat_eq h0)
    exact Vector.getElem_set_ne i.isLt (by decide) hi

@[simp] theorem State.stored0_setPc (s : State) (v : Word) : (s.setPc v).regs[0] = s.regs[0] := s.stored0_setX _ v

@[simp] theorem State.stored0_setZ (s : State) (v : Word) : (s.setZ v).regs[0] = s.regs[0] := s.stored0_setX _ _

@[simp] theorem State.stored0_setZIf (s : State) (on : Bool) (v : Word) : (s.setZIf on v).regs[0] = s.regs[0] := by
  cases on <;> simp [State.setZIf]

@[simp] theorem State.stored0_advance (s : State) (pc : Word) : (s.advance pc).regs[0] = s.regs[0] :=
  s.stored0_setPc _

@[simp] theorem State.stored0_jump (s : State) (taken : Bool) (target : Word) :
    (s.jump taken target).regs[0] = s.regs[0] := by
  cases taken <;> simp [State.jump]

@[simp] theorem State.stored0_aluResult (s : State) (r1 : Reg) (res : Word) :
    (s.aluResult r1 res).regs[0] = s.regs[0] := by simp [State.aluResult]

@[simp] theorem State.stored0_moveResult (s : State) (r1 : Reg) (v : Word) (zf : Bool) :
    (s.moveResult r1 v zf).regs[0] = s.regs[0] := by simp [State.moveResult]

/-! ### What one instruction leaves, field by field -/

section
variable {i : Instr} {s t : State}

theorem NextOf.stored0_eq (h : NextOf s i t) : t.regs[0] = s.regs[0] := by cases h <;> simp

theorem NextOf.config_eq (h : NextOf s i t) : t.config = s.config := by cases h <;> simp

theorem NextOf.cancelRequested_eq (h : NextOf s i t) : t.cancelRequested = s.cancelRequested := by
  cases h <;> simp

theorem NextOf.cancelPolls_eq (h : NextOf s i t) : t.cancelPolls = s.cancelPolls := by cases h <;> simp

theorem NextOf.drawCount_eq (h : NextOf s i t) :
    t.drawCount = s.drawCount + (if i.op = .draw then 1 else 0) := by
  cases h with
  | alu _ r1 res _ _ hop => simp [show i.op ≠ .draw from fun h => hop (by simp [h])]
  | jump _ taken target hop => simp [show i.op ≠ .draw from fun h => by simp [h] at hop]
  | _ => simp [Instr.op]

theorem NextOf.inputCount_eq (h : NextOf s i t) :
    t.inputCount = s.inputCount + (if i.op = .read then 1 else 0) := by
  cases h with
  | alu _ r1 res _ _ hop => simp [show i.op ≠ .read from fun h => hop (by simp [h])]
  | jump _ taken target hop => simp [show i.op ≠ .read from fun h => by simp [h] at hop]
  | _ => simp [Instr.op]

theorem NextOf.events_appended (h : NextOf s i t) :
    ∃ es, t.events = s.events ++ es ∧ (i.op ∉ [Op.draw, .clear] → es = []) := by
  cases h with
  | draw r1 r2 e => exact ⟨[e], by simp, absurd (by simp [Instr.op])⟩
  | drawPresent r1 r2 e => exact ⟨[e, .present], by simp, absurd (by simp [Instr.op])⟩
  | clear => exact ⟨[.clearToBlack, .present], by simp, absurd (by simp [Instr.op])⟩
  | _ => exact ⟨[], by simp, fun _ => rfl⟩

theorem NextOf.mem_eq (h : NextOf s i t) (hop : i.op ≠ .sw) : t.mem = s.mem := by
  cases h with
  | sw => exact absurd rfl hop
  | _ => simp

/-- An instruction leaves the status, or it is a load or store out of range and takes its fault, nothing else. -/
theorem NextOf.status_cases (h : NextOf s i t) :
    t.status = s.status ∨
      i.op ∈ [Op.sw, .lw] ∧ ∃ kind a, kind ≠ .fetch ∧ ¬ a + 4 ≤ s.config.memBytes ∧
        t = s.takeFault (.memFault kind a s.pc) := by
  cases h with
  | swFault r1 r2 hout => exact .inr ⟨by simp [Instr.op], .store, _, by simp, hout, rfl⟩
  | lwFault r1 r2 hout => exact .inr ⟨by simp [Instr.op], .load, _, by simp, hout, rfl⟩
  | _ => exact .inl (by simp)

end

/-- Settles O29, by the inversion lemma of exec and the field lemmas above. -/
theorem onlyNamedInstructionsActOutside : Obligations.OnlyNamedInstructionsActOutside := by
  intro i s t h
  have hn := nextOf_of_exec h
  exact ⟨hn.drawCount_eq, hn.inputCount_eq, hn.events_appended, fun hop => sameMemory_of_mem (hn.mem_eq hop),
    hn.config_eq, hn.cancelRequested_eq, hn.cancelPolls_eq⟩

/-! ### The registers an instruction leaves -/

theorem State.x_moveResult_of_ne (s : State) {r1 j : Reg} (v : Word) {zf : Bool} (h1 : j ≠ r1)
    (hp : j ≠ Reg.pc) (hz : j = Reg.flags → zf = false) : (s.moveResult r1 v zf).x j = s.x j := by
  have hf : ¬ (j = Reg.flags ∧ zf = true) := fun ⟨hj, hon⟩ => by simp [hz hj] at hon
  rw [State.x_moveResult, if_neg hp, if_neg hf, if_neg fun hc => h1 hc.1]

theorem State.x_advance_of_ne (t : State) (pc : Word) {j : Reg} (hp : j ≠ Reg.pc) :
    (t.advance pc).x j = t.x j := by
  rw [State.x_advance, if_neg hp]

theorem updatesZ_jump (c : Config) {op : Op} (hop : op ∈ [Op.jmp, .jz, .jnz, .jmpi, .jmpiz, .jmpinz]) :
    updatesZ c op = false := by
  cases op with
  | jmp | jz | jnz | jmpi | jmpiz | jmpinz => rfl
  | _ => simp at hop

section
variable {i : Instr} {s t : State}

/-- The register frame of every instruction (R30, R74). -/
theorem NextOf.x_eq_of_not_named (h : NextOf s i t) {j : Reg} (hd : j ∉ dests i) (hp : j ≠ Reg.pc)
    (hz : j = Reg.flags → updatesZ s.config i.op = false) : t.x j = s.x j := by
  cases h with
  | alu _ r1 res hdests hupd =>
    have hf : j ≠ Reg.flags := fun hj => by simpa [hupd] using hz hj
    have h1 : j ≠ r1 := by simpa [hdests] using hd
    rw [State.x_aluResult, if_neg hp, if_neg hf, if_neg fun hc => h1 hc.1]
  | mul r1 r2 r3 r4 lo hi =>
    obtain ⟨h1, h2⟩ : j ≠ r1 ∧ j ≠ r2 := by simpa [dests] using hd
    have hf : j ≠ Reg.flags := fun hj => by simpa [updatesZ, Instr.op] using hz hj
    rw [State.x_advance_of_ne _ _ hp, State.x_setZ, if_neg hf, State.x_setX_of_ne _ h2, State.x_setX_of_ne _ h1]
  | mov | movh | lw => exact s.x_moveResult_of_ne _ (by simpa [dests] using hd) hp hz
  | read => exact s.tookInput.x_moveResult_of_ne _ (by simpa [dests] using hd) hp hz
  | sw | draw | drawPresent | clear => exact State.x_advance_of_ne _ _ hp
  | jump _ taken target => exact (jump_effect s taken target).others j hp
  | swFault | lwFault => rfl

/-- The flags register after an instruction that updates Z and completes holds a value `setZ` writes (R28, R30). -/
theorem NextOf.flags_eq_flagsWord (h : NextOf s i t) (ht : t.status = .running)
    (hz : updatesZ s.config i.op = true) : ∃ v, t.x Reg.flags = flagsWord v := by
  cases h with
  | alu _ r1 res => exact ⟨res, by simp [State.x_aluResult]⟩
  | mul r1 r2 r3 r4 lo hi => exact ⟨lo, by simp [State.x_advance, State.x_setZ]⟩
  | movh | lw => exact ⟨_, (moveResult_registers s _ _ _).flagsOn hz⟩
  | read => exact ⟨_, (moveResult_registers s.tookInput _ _ _).flagsOn hz⟩
  | lwFault => simp at ht
  | jump _ taken target hop => simp [updatesZ_jump s.config hop] at hz
  | _ => simp [updatesZ, Instr.op] at hz

end

/-- Settles O30: the register frame, and a flags register that holds what `setZ` writes. -/
theorem onlyDestinationsChange : Obligations.OnlyDestinationsChange := by
  intro i s t h
  have hn := nextOf_of_exec h
  refine ⟨fun j => hn.x_eq_of_not_named, fun _ ht hz => ?_⟩
  obtain ⟨v, hv⟩ := hn.flags_eq_flagsWord ht hz
  rw [hv]
  exact flagsWord_zero_or_one v

/-! ### The PC an instruction leaves -/

theorem State.pc_advance_of_pc_eq {t : State} {pc : Word} (h : t.pc = pc) : (t.advance pc).pc = pc + 4 := by
  subst h
  exact t.pc_advance_self

theorem State.pc_setX_of_ne (s : State) {i : Reg} (h : Reg.pc ≠ i) (v : Word) : (s.setX i v).pc = s.pc :=
  s.x_setX_of_ne h v

theorem State.pc_setZ (s : State) (v : Word) : (s.setZ v).pc = s.pc := s.pc_setX_of_ne (by decide) _

theorem State.pc_setZIf (s : State) (on : Bool) (v : Word) : (s.setZIf on v).pc = s.pc := by
  cases on <;> simp [State.setZIf, State.pc_setZ]

theorem State.pc_aluResult_of_ne (s : State) {r1 : Reg} (h : Reg.pc ≠ r1) (res : Word) :
    (s.aluResult r1 res).pc = s.pc + 4 :=
  State.pc_advance_of_pc_eq (by rw [State.pc_setZ, s.pc_setX_of_ne h])

theorem State.pc_moveResult_of_ne (s : State) {r1 : Reg} (h : Reg.pc ≠ r1) (v : Word) (zf : Bool) :
    (s.moveResult r1 v zf).pc = s.pc + 4 :=
  State.pc_advance_of_pc_eq (by rw [State.pc_setZIf, s.pc_setX_of_ne h])

/-- The PC of every instruction that does not write r30: the next word's, or where a fault was taken the same, or
a jump's. -/
theorem NextOf.pc_cases {i : Instr} {s t : State} (h : NextOf s i t) (hd : Reg.pc ∉ dests i) :
    t.pc = s.pc + 4 ∨
      (∃ record, record ≠ .running ∧ t = s.takeFault record) ∨
      (i.op ∈ [Op.jmp, .jz, .jnz, .jmpi, .jmpiz, .jmpinz] ∧ ∃ taken target, t = s.jump taken target ∧
        (i.op ∈ [Op.jmpi, .jmpiz, .jmpinz] → ∃ imm, target = target26 imm)) := by
  cases h with
  | alu _ r1 res hdests => exact .inl (s.pc_aluResult_of_ne (by simpa [hdests] using hd) res)
  | mul r1 r2 r3 r4 lo hi =>
    obtain ⟨h1, h2⟩ : Reg.pc ≠ r1 ∧ Reg.pc ≠ r2 := by simpa [dests] using hd
    exact .inl (State.pc_advance_of_pc_eq
      (by rw [State.pc_setZ, State.pc_setX_of_ne _ h2, State.pc_setX_of_ne _ h1]))
  | mov | movh | lw => exact .inl (s.pc_moveResult_of_ne (by simpa [dests] using hd) _ _)
  | read => exact .inl (s.tookInput.pc_moveResult_of_ne (by simpa [dests] using hd) _ _)
  | sw | draw | drawPresent | clear => exact .inl (State.pc_advance_of_pc_eq rfl)
  | swFault | lwFault => exact .inr (.inl ⟨_, by simp, rfl⟩)
  | jump _ taken target hop ht => exact .inr (.inr ⟨hop, taken, target, rfl, ht⟩)

/-- Z as an integer: the lowest bit of slot 31 (R27). -/
theorem State.z_eq_odd (s : State) : s.z = decide ((s.x Reg.flags).toNat % 2 = 1) := by
  simp [State.z, BitVec.getLsbD, Nat.testBit_zero]

theorem State.not_z_eq_even (s : State) : (!s.z) = decide ((s.x Reg.flags).toNat % 2 = 0) := by
  rw [s.z_eq_odd, ← decide_not]
  exact decide_eq_decide.2 (by omega)

/-- The meaning of the six jumps: `takesJump` is the condition they test (R164 to R169). -/
theorem exec_jump {i : Instr} (hop : i.op ∈ [Op.jmp, .jz, .jnz, .jmpi, .jmpiz, .jmpinz]) (s : State) :
    ∃ target, exec i s = .next (s.jump (takesJump s i) target) := by
  cases i with
  | jmp r1 => exact ⟨s.x r1, rfl⟩
  | jz r1 => exact ⟨s.x r1, by simp only [exec, execJz, takesJump, s.z_eq_odd]⟩
  | jnz r1 => exact ⟨s.x r1, by simp only [exec, execJnz, takesJump, s.not_z_eq_even]⟩
  | jmpi imm => exact ⟨target26 imm, rfl⟩
  | jmpiz imm => exact ⟨target26 imm, by simp only [exec, execJmpiz, takesJump, s.z_eq_odd]⟩
  | jmpinz imm => exact ⟨target26 imm, by simp only [exec, execJmpinz, takesJump, s.not_z_eq_even]⟩
  | _ => simp [Instr.op] at hop

theorem toNat_add_four (w : Word) : (w + 4).toNat = (w.toNat + 4) % 2 ^ 32 := by simp [BitVec.toNat_add]

theorem aligned_add_four {w : Word} (h : w.toNat % 4 = 0) : (w + 4).toNat % 4 = 0 := by
  rw [toNat_add_four]
  omega

theorem aligned_target26 (imm : Imm26) : (target26 imm).toNat % 4 = 0 := by
  simp only [target26, BitVec.toNat_ofNat]
  omega

/-- R26: what a step from an aligned PC cannot do without JMP, JZ, JNZ or a write of r30. -/
theorem NextOf.pc_aligned {i : Instr} {s t : State} (h : NextOf s i t) (hs : s.pc.toNat % 4 = 0)
    (hop : i.op ∉ [Op.jmp, .jz, .jnz]) (hd : Reg.pc ∉ dests i) : t.pc.toNat % 4 = 0 := by
  obtain hpc | ⟨record, -, rfl⟩ | ⟨hj, taken, target, rfl, ht⟩ := h.pc_cases hd
  · rw [hpc]
    exact aligned_add_four hs
  · exact hs
  · have himm : i.op ∈ [Op.jmpi, .jmpiz, .jmpinz] := by
      simp only [List.mem_cons, List.not_mem_nil, or_false] at hj hop ⊢
      tauto
    obtain ⟨imm, rfl⟩ := ht himm
    rw [(jump_effect s taken (target26 imm)).nextPc]
    split
    · exact aligned_target26 imm
    · exact aligned_add_four hs

/-- R161: the sequential PC of every instruction that completes, is no taken jump and does not write r30. -/
theorem pc_eq_add_four_of_exec {i : Instr} {s t : State} (h : exec i s = .next t) (hd : Reg.pc ∉ dests i)
    (hj : takesJump s i = false) (ht : t.status = .running) : t.pc = s.pc + 4 := by
  obtain hpc | ⟨record, hrec, rfl⟩ | ⟨hop, -⟩ := (nextOf_of_exec h).pc_cases hd
  · exact hpc
  · exact absurd ht hrec
  · obtain ⟨target, hexec⟩ := exec_jump hop s
    rw [h, hj, Host.Outcome.next.injEq] at hexec
    rw [hexec]
    exact (jump_effect s false target).nextPc

/-- Settles O31: both halves rest on `NextOf.pc_cases`; a jump's condition comes from `exec_jump`. -/
theorem misalignedPcHasThreeSources : Obligations.MisalignedPcHasThreeSources := by
  refine ⟨fun i s t h => (nextOf_of_exec h).pc_aligned, fun i s hs hd hj => ?_⟩
  obtain ⟨t, hexec, hn⟩ := exec_next i s
  refine ⟨t, hexec, fun hop => ?_, fun ht => ?_⟩
  · obtain hst | ⟨hmem, -⟩ := hn.status_cases
    · rw [hst, hs]
    · exact absurd hmem hop
  · have hpc := pc_eq_add_four_of_exec hexec hd hj ht
    refine ⟨by rw [hpc, toNat_add_four], fun htop => ?_⟩
    rw [hpc, htop]
    rfl

/-! ### What a step can do -/

/-- The next states a step from Running can have: one line for each way a step ends. -/
inductive StepNext (s : State) : State → Prop
  | cancel (h : s.takesCancel = true) : StepNext s s.cancel
  | fetchFault : StepNext s (s.polled.takeFault (.memFault .fetch s.pc.toNat s.pc))
  | decodeFault (opcode : BitVec 6) (h : ∀ op, s.config.opc.code op ≠ opcode) :
      StepNext s (s.polled.takeFault (.decodeFault opcode s.pc))
  | exec (i : Instr) (t : State) (h : NextOf s.polled i t) : StepNext s t

theorem fetch_error {s : State} {record : Status} (h : s.fetch = .error record) :
    record = .memFault .fetch s.pc.toNat s.pc := by
  obtain ⟨-, -, hf⟩ | ⟨-, -, hf⟩ | ⟨-, -, hf⟩ := s.fetch_cases <;> rw [h] at hf <;> cases hf <;> rfl

theorem code_ne_of_decode_undefined {m : OpcodeMap} {w : Word} {opcode : BitVec 6}
    (h : decode m w = .undefinedOpcode opcode) (op : Op) : m.code op ≠ opcode := by
  obtain ⟨op', -, hd⟩ | ⟨hnone, hd⟩ := decode_cases m w
  · rw [h] at hd
    cases hd
  · rw [h] at hd
    cases hd
    exact dispatch_eq_none.1 hnone op

theorem instrStep_next (s : State) : ∃ t, instrStep s = .next t := by
  obtain ⟨_, -, h⟩ | ⟨_, _, -, -, h⟩ | ⟨_, i, -, -, h⟩ := instrStep_cases s
  · exact ⟨_, h⟩
  · exact ⟨_, h⟩
  · obtain ⟨t, ht, -⟩ := exec_next i s
    exact ⟨t, h.trans ht⟩

/-- The inversion lemma of step. -/
theorem stepNext_of_step {s t : State} (h : step s = .next t) : s.status = .running ∧ StepNext s t := by
  obtain ⟨-, hs⟩ | ⟨hrun, hc, hs⟩ | ⟨hrun, -, hs⟩ := step_cases s
  · rw [h] at hs
    cases hs
  · rw [h] at hs
    cases hs
    exact ⟨hrun, .cancel hc⟩
  · refine ⟨hrun, ?_⟩
    obtain ⟨record, hf, hi⟩ | ⟨w, opcode, -, hd, hi⟩ | ⟨w, i, -, -, hi⟩ := instrStep_cases s.polled
    · rw [h, hi] at hs
      cases hs
      rw [fetch_error hf, s.pc_polled]
      exact .fetchFault
    · rw [h, hi] at hs
      cases hs
      rw [s.config_polled] at hd
      rw [s.pc_polled]
      exact .decodeFault opcode (code_ne_of_decode_undefined hd)
    · rw [h, hi] at hs
      exact .exec i t (nextOf_of_exec hs.symm)

/-- Settles O38: from Running both ways a step goes on answer a next state. -/
theorem onlyRunningHasANextStep : Obligations.OnlyRunningHasANextStep := by
  intro s
  obtain ⟨hs, hstep⟩ | ⟨hs, -, hstep⟩ | ⟨hs, -, hstep⟩ := step_cases s
  · exact ⟨⟨fun ⟨t, ht⟩ => (stepNext_of_step ht).1, fun h => absurd h hs⟩, fun _ => hstep⟩
  · exact ⟨⟨fun _ => hs, fun _ => ⟨_, hstep⟩⟩, fun h => absurd hs h⟩
  · exact ⟨⟨fun _ => hs, fun _ => hstep ▸ instrStep_next s.polled⟩, fun h => absurd hs h⟩

/-! ### Cancellation -/

theorem State.takesCancel_of_no_request {s : State} (h : s.cancelRequested = false) : s.takesCancel = false := by
  simp [State.takesCancel, h]

theorem NextOf.status_ne_cancelled {i : Instr} {s t : State} (h : NextOf s i t) (hs : s.status ≠ .cancelled) :
    t.status ≠ .cancelled := by
  obtain hst | ⟨-, kind, a, -, -, rfl⟩ := h.status_cases
  · rwa [hst]
  · simp

/-- R211: without a request no step ends in Cancelled. -/
theorem step_status_ne_cancelled {s t : State} (hreq : s.cancelRequested = false) (h : step s = .next t) :
    t.status ≠ .cancelled := by
  obtain ⟨hs, hn⟩ := stepNext_of_step h
  cases hn with
  | cancel hc => simp [State.takesCancel_of_no_request hreq] at hc
  | fetchFault | decodeFault => simp
  | exec i t hn => exact hn.status_ne_cancelled (by simp [hs])

/-- Settles O39: with a request, the two ways `step_cases` leaves a running state. -/
theorem cancellationAtABoundary : Obligations.CancellationAtABoundary := by
  intro s
  refine ⟨⟨rfl, fun _ => rfl, fun _ => rfl, ⟨rfl, rfl, rfl⟩, rfl, rfl, rfl⟩,
    fun _ hreq t => step_status_ne_cancelled hreq, fun hs hreq => ?_⟩
  obtain ⟨hstop, -⟩ | ⟨-, -, hstep⟩ | ⟨-, -, hstep⟩ := step_cases s
  · exact absurd hs hstop
  · exact .inl ⟨_, hstep, cancel_onlyStatus s⟩
  · exact .inr (by rw [hstep, s.polled_of_request hreq])

/-! ### Runs -/

/-- What any number of steps can do to the ports and the parameters (R34, R37, R43). -/
structure OnlyExtends (s t : State) : Prop where
  events : ∃ es, t.events = s.events ++ es
  drawCount : s.drawCount ≤ t.drawCount
  inputCount : s.inputCount ≤ t.inputCount
  config : t.config = s.config
  cancelRequested : t.cancelRequested = s.cancelRequested

theorem OnlyExtends.of_eq {s t : State} (he : t.events = s.events) (hd : t.drawCount = s.drawCount)
    (hi : t.inputCount = s.inputCount) (hc : t.config = s.config)
    (hr : t.cancelRequested = s.cancelRequested) : OnlyExtends s t :=
  ⟨⟨[], by simp [he]⟩, hd.ge, hi.ge, hc, hr⟩

theorem OnlyExtends.trans {s t u : State} (h : OnlyExtends s t) (h' : OnlyExtends t u) : OnlyExtends s u := by
  obtain ⟨es, hes⟩ := h.events
  obtain ⟨fs, hfs⟩ := h'.events
  exact ⟨⟨es ++ fs, by rw [hfs, hes, List.append_assoc]⟩, h.drawCount.trans h'.drawCount,
    h.inputCount.trans h'.inputCount, h'.config.trans h.config, h'.cancelRequested.trans h.cancelRequested⟩

theorem onlyExtends_polled (s : State) : OnlyExtends s s.polled :=
  .of_eq (by simp) (by simp) (by simp) (by simp) (by simp)

theorem onlyExtends_takeFault (s : State) (record : Status) : OnlyExtends s (s.takeFault record) :=
  .of_eq rfl rfl rfl rfl rfl

theorem NextOf.onlyExtends {i : Instr} {s t : State} (h : NextOf s i t) : OnlyExtends s t where
  events := h.events_appended.imp fun _ he => he.1
  drawCount := by rw [h.drawCount_eq]; exact Nat.le_add_right _ _
  inputCount := by rw [h.inputCount_eq]; exact Nat.le_add_right _ _
  config := h.config_eq
  cancelRequested := h.cancelRequested_eq

theorem step_onlyExtends {s t : State} (h : step s = .next t) : OnlyExtends s t := by
  obtain ⟨-, hn⟩ := stepNext_of_step h
  cases hn with
  | cancel => exact .of_eq rfl rfl rfl rfl rfl
  | fetchFault | decodeFault => exact (onlyExtends_polled s).trans (onlyExtends_takeFault _ _)
  | exec i t hn => exact (onlyExtends_polled s).trans hn.onlyExtends

/-- A run of one step more is a step and then a run. -/
theorem run_succ_next {M : Host.Core} {n : Nat} {s u : M.State} (h : M.run (n + 1) s = .next u) :
    ∃ t, M.step s = .next t ∧ M.run n t = .next u := by
  rw [Host.Core.run] at h
  cases hs : M.step s with
  | next t =>
    rw [hs] at h
    exact ⟨t, rfl, h⟩
  | fault r =>
    rw [hs] at h
    cases h
  | refused r =>
    rw [hs] at h
    cases h

/-- What one step keeps, a run keeps: the induction on the number of steps, once. -/
theorem run_onlyExtends (n : Nat) {s t : State} (h : Sys2Proof.core.run n s = .next t) : OnlyExtends s t := by
  induction n generalizing s with
  | zero =>
    cases h
    exact .of_eq rfl rfl rfl rfl rfl
  | succ n ih =>
    obtain ⟨u, hstep, hrun⟩ := run_succ_next h
    exact (step_onlyExtends hstep).trans (ih hrun)

/-- Settles O43, by induction on the number of steps. -/
theorem runsOnlyAppend : Obligations.RunsOnlyAppend := by
  intro n s t h
  obtain ⟨hevents, hdraw, hinput, hconfig, hreq⟩ := run_onlyExtends n h
  exact ⟨hevents, hdraw, hinput, hconfig, hreq⟩

/-! ### Process start -/

theorem State.x_resetWith (c : Config) (m : Memory) (i : Reg) : (State.resetWith c m).x i = 0 := by
  simp [State.x, State.resetWith]

theorem State.boot_of_fits {c : Config} {image : List Byte} (h : image.length ≤ c.memBytes) :
    State.boot c image = some (State.resetWith c (Memory.ofImage image)) := if_pos h

theorem State.boot_of_not_fits {c : Config} {image : List Byte} (h : ¬ image.length ≤ c.memBytes) :
    State.boot c image = none := if_neg h

/-- Settles O44: the registers of `resetWith`, and the memory law of the loader. -/
theorem processStart : Obligations.ProcessStart := by
  intro c image
  refine ⟨fun hfits => ⟨_, State.boot_of_fits hfits, State.x_resetWith c _, State.x_resetWith c _ _, ?_, rfl,
    rfl, rfl, rfl, fun a ha => ?_, fun a ha => ?_, rfl⟩, State.boot_of_not_fits⟩
  · simp [State.z, State.x_resetWith]
  · exact (Memory.byte_ofImage image a).trans (by simp [ha])
  · exact (Memory.byte_ofImage image a).trans (by simp [ha])

/-! ### The invariant -/

theorem pixels_append (es fs : List Event) : pixels (es ++ fs) = pixels es + pixels fs :=
  List.countP_append

theorem presents_append (es fs : List Event) : presents (es ++ fs) = presents es + presents fs :=
  List.countP_append

theorem blacks_append (es fs : List Event) : blacks (es ++ fs) = blacks es + blacks fs :=
  List.countP_append

/-- What a DRAW adds to the three counts. -/
theorem counts_setPixel {e : Event} {x y : BitVec 8} {rgb : BitVec 24} (he : e = .setPixel x y rgb) :
    pixels [e] = 1 ∧ presents [e] = 0 ∧ blacks [e] = 0 := by
  subst he
  exact ⟨rfl, rfl, rfl⟩

/-- What every 256th DRAW adds to the three counts. -/
theorem counts_setPixel_present {e : Event} {x y : BitVec 8} {rgb : BitVec 24} (he : e = .setPixel x y rgb) :
    pixels [e, .present] = 1 ∧ presents [e, .present] = 1 ∧ blacks [e, .present] = 0 := by
  subst he
  exact ⟨rfl, rfl, rfl⟩

/-- What a CLEAR adds to the three counts. -/
theorem counts_clear :
    pixels [.clearToBlack, .present] = 0 ∧ presents [.clearToBlack, .present] = 1 ∧
      blacks [.clearToBlack, .present] = 1 := by decide

/-- The part of the invariant about the framebuffer port (R182, R184). -/
def PortMatches (s : State) : Prop :=
  pixels s.events = s.drawCount ∧ presents s.events = s.drawCount / 256 + blacks s.events

theorem PortMatches.of_eq {s t : State} (h : PortMatches s) (he : t.events = s.events)
    (hd : t.drawCount = s.drawCount) : PortMatches t := by
  rwa [PortMatches, he, hd]

/-- Events that add as many pixels as were drawn, and a Present for each ClearToBlack and each full 256, keep the
counts in step. -/
theorem PortMatches.append {s t : State} (h : PortMatches s) {es : List Event} (he : t.events = s.events ++ es)
    (hd : t.drawCount = s.drawCount + pixels es)
    (hp : s.drawCount / 256 + presents es = t.drawCount / 256 + blacks es) : PortMatches t := by
  obtain ⟨hpixels, hpresents⟩ := h
  simp only [PortMatches, he, pixels_append, presents_append, blacks_append]
  omega

/-- DRAW adds one pixel and, with every 256th, one Present; CLEAR adds one of each of the other two events. -/
theorem NextOf.portMatches {i : Instr} {s t : State} (h : NextOf s i t) (hm : PortMatches s) :
    PortMatches t := by
  cases h with
  | draw r1 r2 e he hno =>
    obtain ⟨hpix, hpre, hbla⟩ := counts_setPixel he
    refine hm.append (es := [e]) (by simp) (by simp [hpix]) ?_
    simp only [hpre, hbla, State.drawCount_advance, State.drawCount_countDraw, State.drawCount_emit]
    omega
  | drawPresent r1 r2 e he hyes =>
    obtain ⟨hpix, hpre, hbla⟩ := counts_setPixel_present he
    refine hm.append (es := [e, .present]) (by simp) (by simp [hpix]) ?_
    simp only [hpre, hbla, State.drawCount_advance, State.drawCount_countDraw, State.drawCount_emit]
    omega
  | clear =>
    obtain ⟨hpix, hpre, hbla⟩ := counts_clear
    refine hm.append (es := [.clearToBlack, .present]) (by simp) (by simp [hpix]) ?_
    simp [hpre, hbla]
  | _ => exact hm.of_eq (by simp) (by simp)

/-- Only SW changes memory, and it keeps the canonical form. -/
theorem NextOf.mem_wf {i : Instr} {s t : State} (h : NextOf s i t) (hm : s.mem.wf) : t.mem.wf := by
  cases h with
  | sw r1 r2 => simpa using Memory.wf_setWord hm _ _
  | _ => simpa using hm

/-- A store is checked against the capacity before a byte is written (R55). -/
theorem NextOf.mem_below {i : Instr} {s t : State} (h : NextOf s i t) (hm : s.mem.below s.config.memBytes) :
    t.mem.below t.config.memBytes := by
  rw [h.config_eq]
  cases h with
  | sw r1 r2 hin => simpa using Memory.below_setWord hm hin _
  | _ => simpa using hm

theorem faultHeld_of_running {s : State} (h : s.status = .running) : FaultHeld s := by simp [FaultHeld, h]

theorem faultHeld_access (s : State) {kind : AccessKind} {a : Nat} (hk : kind ≠ .fetch)
    (ha : ¬ a + 4 ≤ s.config.memBytes) : FaultHeld (s.takeFault (.memFault kind a s.pc)) := by
  cases kind with
  | fetch => exact absurd rfl hk
  | load | store => exact ⟨rfl, ha⟩

theorem NextOf.faultHeld {i : Instr} {s t : State} (h : NextOf s i t) (hs : s.status = .running) :
    FaultHeld t := by
  obtain hst | ⟨-, kind, a, hk, ha, rfl⟩ := h.status_cases
  · exact faultHeld_of_running (hst.trans hs)
  · exact faultHeld_access s hk ha

section
variable {s t : State}

/-- Everything of the invariant but the fault record depends on these five fields. -/
theorem State.Inv.of_eq (h : s.Inv) (hregs : t.regs = s.regs) (hmem : t.mem = s.mem)
    (hconfig : t.config = s.config) (hevents : t.events = s.events) (hdraw : t.drawCount = s.drawCount)
    (hfault : FaultHeld t) : t.Inv where
  slot0 := by simpa [hregs] using h.slot0
  memWf := by simpa [hmem] using h.memWf
  memBelow := by simpa [hmem, hconfig] using h.memBelow
  pixelCount := by simpa [hevents, hdraw] using h.pixelCount
  presentCount := by simpa [hevents, hdraw] using h.presentCount
  faultHeld := hfault

theorem State.Inv.takeFault (h : s.Inv) {record : Status} (hf : FaultHeld (s.takeFault record)) :
    (s.takeFault record).Inv := h.of_eq rfl rfl rfl rfl rfl hf

theorem State.Inv.cancel (h : s.Inv) : s.cancel.Inv := h.of_eq rfl rfl rfl rfl rfl trivial

theorem State.Inv.polled (h : s.Inv) (hs : s.status = .running) : s.polled.Inv :=
  h.of_eq (by simp) (by simp) (by simp) (by simp) (by simp) (faultHeld_of_running (by simp [hs]))

/-- Every instruction keeps the invariant. -/
theorem NextOf.inv {i : Instr} (h : NextOf s i t) (hi : s.Inv) (hs : s.status = .running) : t.Inv := by
  obtain ⟨hpixels, hpresents⟩ := h.portMatches ⟨hi.pixelCount, hi.presentCount⟩
  exact ⟨h.stored0_eq.trans hi.slot0, h.mem_wf hi.memWf, h.mem_below hi.memBelow, hpixels, hpresents,
    h.faultHeld hs⟩

end

/-- Settles O46: every way a step can end keeps the invariant. -/
theorem stepKeepsTheInvariant : Obligations.StepKeepsTheInvariant := by
  intro s t hinv h
  obtain ⟨hs, hn⟩ := stepNext_of_step h
  have hpolled := hinv.polled hs
  cases hn with
  | cancel => exact hinv.cancel
  | fetchFault => exact hpolled.takeFault ⟨s.pc_polled.symm, congrArg BitVec.toNat s.pc_polled.symm⟩
  | decodeFault opcode hcode => exact hpolled.takeFault ⟨s.pc_polled.symm, by simpa using hcode⟩
  | exec i t hn => exact hn.inv hpolled (by simp [hs])

theorem inv_resetWith {c : Config} {m : Memory} (hwf : m.wf) (hbelow : m.below c.memBytes) :
    (State.resetWith c m).Inv where
  slot0 := by simp [State.resetWith]
  memWf := hwf
  memBelow := hbelow
  pixelCount := rfl
  presentCount := by simp [State.resetWith, presents, blacks]
  faultHeld := trivial

/-- Settles O47: the loader leaves a canonical memory inside the capacity. -/
theorem invariantHoldsAtStart : Obligations.InvariantHoldsAtStart := by
  refine ⟨inv_resetWith ⟨List.Pairwise.nil, by simp⟩ (by simp), fun c image s hboot => ?_⟩
  by_cases hfits : image.length ≤ c.memBytes
  · rw [State.boot_of_fits hfits] at hboot
    cases hboot
    exact inv_resetWith (Memory.wf_ofImage image) (Memory.below_ofImage hfits)
  · rw [State.boot_of_not_fits hfits] at hboot
    cases hboot

end Sys2Proof.Machine
end

section
/-! PROOFS for the statements of the memory family: word transfers, the fetch at the PC, and what a stored word means
for the next fetch. Everything about a transfer goes through `memRead` and `memWrite`'s two cases, everything about a
fetch through `fetch_of_aligned`, and everything about a step that reaches its instruction through `step_of_fetch`. -/

namespace Sys2Proof.Machine

/-! ### Word transfers -/

/-- The big-endian value of a word read (R52). -/
theorem Memory.toNat_word (m : Memory) (a : Nat) :
    (m.word a).toNat = (m.byte a).toNat * 2 ^ 24 + (m.byte (a + 1)).toNat * 2 ^ 16 +
      (m.byte (a + 2)).toNat * 2 ^ 8 + (m.byte (a + 3)).toNat :=
  wordOfBytes_toNat _ _ _ _

/-- The four bytes of a word written (R53). -/
theorem Memory.toNat_byte_setWord (m : Memory) (a : Nat) (v : Word) :
    ((m.setWord a v).byte a).toNat = v.toNat / 2 ^ 24 ∧
      ((m.setWord a v).byte (a + 1)).toNat = v.toNat / 2 ^ 16 % 256 ∧
      ((m.setWord a v).byte (a + 2)).toNat = v.toNat / 2 ^ 8 % 256 ∧
      ((m.setWord a v).byte (a + 3)).toNat = v.toNat % 256 := by
  have hv := v.isLt
  refine ⟨?_, ?_, ?_, ?_⟩ <;> simp [Memory.byte_setWord] <;> omega

/-- Settles O9: in range by the laws of a word read and a word written, out of range by the bound check. -/
theorem wordTransfersAreBigEndian : Obligations.WordTransfersAreBigEndian := by
  intro s a kind v
  refine ⟨fun hin => ⟨⟨_, State.memRead_of_inRange hin kind, s.mem.toNat_word a⟩, ?_⟩,
    fun hout => ⟨State.memRead_of_out hout kind, State.memWrite_of_out hout v⟩⟩
  obtain ⟨h0, h1, h2, h3⟩ := s.mem.toNat_byte_setWord a v
  exact ⟨_, State.memWrite_of_inRange hin v, h0, h1, h2, h3, fun b hb => Memory.byte_setWord_of_out hb v,
    fun _ => rfl, ⟨rfl, rfl, rfl⟩, ⟨rfl, rfl, rfl, rfl⟩⟩

/-! ### The fetch -/

section
variable {s : State}

/-- Past the alignment check a fetch is a word read at the PC (R54, R57). -/
theorem State.fetch_of_aligned (h : s.pc.toNat % 4 = 0 ∨ s.config.misalignedFetch = .byteFetch) :
    s.fetch = s.memRead .fetch s.pc.toNat := by
  refine if_neg fun ⟨hpc, hfault⟩ => ?_
  obtain h | h := h
  · exact hpc h
  · simp [h] at hfault

theorem State.fetch_of_misaligned (hpc : s.pc.toNat % 4 ≠ 0) (hfault : s.config.misalignedFetch = .fault) :
    s.fetch = .error (.memFault .fetch s.pc.toNat s.pc) := if_pos ⟨hpc, hfault⟩

/-- The fetch that succeeds: the word of the four bytes at the PC. -/
theorem State.fetch_of_inRange (h : s.pc.toNat % 4 = 0 ∨ s.config.misalignedFetch = .byteFetch)
    (hin : s.pc.toNat + 4 ≤ s.config.memBytes) : s.fetch = .ok (s.mem.word s.pc.toNat) :=
  (State.fetch_of_aligned h).trans (State.memRead_of_inRange hin .fetch)

end

/-- Settles O35: the alignment check, then the word read and its bound check. -/
theorem fetchAtThePc : Obligations.FetchAtThePc := by
  rintro s p rfl
  exact ⟨State.fetch_of_misaligned, fun h =>
    ⟨fun hin => ⟨_, State.fetch_of_inRange h hin, s.mem.toNat_word _⟩,
      fun hout => (State.fetch_of_aligned h).trans (State.memRead_of_out hout .fetch)⟩, fun _ _ => rfl⟩

/-! ### The step that reaches its instruction -/

/-- A running state with no request whose fetched word decodes to i steps by exec of i (R160). -/
theorem step_of_fetch {s : State} {w : Word} {i : Instr} (hs : s.status = .running)
    (hreq : s.cancelRequested = false) (hf : s.fetch = .ok w) (hd : decode s.config.opc w = .instr i) :
    step s = exec i s := by
  obtain ⟨hstop, -⟩ | ⟨-, hc, -⟩ | ⟨-, -, hstep⟩ := step_cases s
  · exact absurd hs hstop
  · simp [State.takesCancel_of_no_request hreq] at hc
  · rw [hstep, s.polled_of_no_request hreq]
    simp only [instrStep, hf, hd]

/-- A number that its stated bits hold is its table word. -/
theorem tableWord_of_lt {nbits w : Nat} (h : w < 2 ^ nbits) : tableWord nbits w = BitVec.ofNat 32 w := by
  rw [tableWord, Nat.mod_eq_of_lt h]

/-- Settles O48: the fetch reads back the word that `withFetchWord` stored at the PC. -/
theorem fetchWordIsRunNext : Obligations.FetchWordIsRunNext := by
  intro s w i hs hreq hw hin halign hd
  have hf : (s.withFetchWord 32 w).fetch = .ok (BitVec.ofNat 32 w) := by
    rw [State.fetch_of_inRange (by simpa using halign) (by simpa using hin), s.pc_withFetchWord,
      s.mem_withFetchWord, Memory.word_setWord, tableWord_of_lt hw]
  exact step_of_fetch hs hreq hf hd

/-! ### A store and the fetches after it -/

section
variable {s : State} {r1 r2 : Reg}

/-- The state SW in range answers (R142). -/
def State.stored (s : State) (r1 r2 : Reg) : State :=
  State.advance { s with mem := s.mem.setWord (byteAddress (s.x r1)) (s.x r2) } s.pc

theorem exec_sw_of_inRange (h : byteAddress (s.x r1) + 4 ≤ s.config.memBytes) :
    exec (.sw r1 r2) s = .next (s.stored r1 r2) := by
  simp only [exec, execSw, State.memWrite_of_inRange h, State.stored]

@[simp] theorem State.mem_stored : (s.stored r1 r2).mem = s.mem.setWord (byteAddress (s.x r1)) (s.x r2) :=
  State.mem_advance _ _

@[simp] theorem State.status_stored : (s.stored r1 r2).status = s.status := State.status_advance _ _

@[simp] theorem State.cancelRequested_stored : (s.stored r1 r2).cancelRequested = s.cancelRequested :=
  State.cancelRequested_advance _ _

@[simp] theorem State.config_stored : (s.stored r1 r2).config = s.config := State.config_advance _ _

theorem onlyPcAdvances_stored (s : State) (r1 r2 : Reg) : OnlyPcAdvances s (s.stored r1 r2) := advance_onlyPc rfl

/-- A fetch at the address of a store, from the memory the store left, is the word stored; that address is
4 × (word index), so the fetch is aligned (R51, R63). -/
theorem fetch_of_stored (hin : byteAddress (s.x r1) + 4 ≤ s.config.memBytes) {u : State}
    (hpc : byteAddress (s.x r1) = u.pc.toNat) (hconfig : u.config = s.config)
    (hmem : u.mem = (s.stored r1 r2).mem) : u.fetch = .ok (s.x r2) := by
  have halign : u.pc.toNat % 4 = 0 := by
    rw [← hpc]
    exact Nat.mul_mod_right _ _
  rw [State.fetch_of_inRange (.inl halign) (by rwa [← hpc, hconfig]), hmem, State.mem_stored, ← hpc,
    Memory.word_setWord]

end

/-- Settles O21: the next step and the later fetch both read the stored word by `fetch_of_stored`; the step that makes
the store has fetched its own word before. -/
theorem storeIsSeenByNextFetch : Obligations.StoreIsSeenByNextFetch := by
  intro r1 r2 s hs hreq hin
  have hexec : exec (.sw r1 r2) s = .next (s.stored r1 r2) := exec_sw_of_inRange hin
  have hadv := onlyPcAdvances_stored s r1 r2
  refine ⟨fun i hd hnext => ⟨_, hexec, ?_⟩, fun w hf hd => ⟨_, ?_, hexec, ?_, hadv, ?_⟩⟩
  · have hfetch := fetch_of_stored hin (u := s.stored r1 r2) (by rw [hadv.nextPc, hnext]) State.config_stored rfl
    exact step_of_fetch (by simp [hs]) (by simp [hreq]) hfetch (by simpa using hd)
  · rw [step_of_fetch hs hreq hf hd, hexec]
  · simp [hs]
  · exact fun hown u hpc hconfig hmem => fetch_of_stored hin (by rw [hpc, hown]) hconfig hmem

end Sys2Proof.Machine
end

section
/-! PROOFS for the statements of the encoding family, the decoder's part: fields, dispatch, encoded words and the
immediates. Everything about a word that decodes goes through `decode_of_dispatch`. -/

namespace Sys2Proof

open Sys2Proof.Laws Sys2Proof.Machine

/-! ### Decoding by dispatch (R80) -/

theorem decode_of_dispatch {m : OpcodeMap} {w : Word} {op : Op} (h : dispatch m (fields w).opcode = some op) :
    decode m w = .instr (op.instr (fields w)) := by
  simp only [decode, h]

theorem decode_of_dispatch_none {m : OpcodeMap} {w : Word} (h : dispatch m (fields w).opcode = none) :
    decode m w = .undefinedOpcode (fields w).opcode := by
  simp only [decode, h]

theorem decode_of_opcode {m : OpcodeMap} (hm : m.wf) {w : Word} {op : Op} (h : (fields w).opcode = m.code op) :
    decode m w = .instr (op.instr (fields w)) :=
  decode_of_dispatch (h ▸ dispatch_code hm op)

/-! ### Encoded words -/

/-- The two laws of an encoded word, for every instruction: its opcode field, and its operands read back (R82). -/
theorem encoded_laws (i : Instr) : EncodedOpcode.Statement i ∧ EncodedFields.Statement i := by
  cases i with
  | not r1 r2 => exact ⟨EncodedOpcode.not r1 r2, EncodedFields.not r1 r2⟩
  | xor r1 r2 r3 => exact ⟨EncodedOpcode.xor r1 r2 r3, EncodedFields.xor r1 r2 r3⟩
  | or r1 r2 r3 => exact ⟨EncodedOpcode.or r1 r2 r3, EncodedFields.or r1 r2 r3⟩
  | and r1 r2 r3 => exact ⟨EncodedOpcode.and r1 r2 r3, EncodedFields.and r1 r2 r3⟩
  | shl r1 r2 => exact ⟨EncodedOpcode.shl r1 r2, EncodedFields.shl r1 r2⟩
  | shr r1 r2 => exact ⟨EncodedOpcode.shr r1 r2, EncodedFields.shr r1 r2⟩
  | rotl r1 r2 => exact ⟨EncodedOpcode.rotl r1 r2, EncodedFields.rotl r1 r2⟩
  | rotr r1 r2 => exact ⟨EncodedOpcode.rotr r1 r2, EncodedFields.rotr r1 r2⟩
  | add r1 r2 r3 => exact ⟨EncodedOpcode.add r1 r2 r3, EncodedFields.add r1 r2 r3⟩
  | sub r1 r2 r3 => exact ⟨EncodedOpcode.sub r1 r2 r3, EncodedFields.sub r1 r2 r3⟩
  | inc r1 r2 => exact ⟨EncodedOpcode.inc r1 r2, EncodedFields.inc r1 r2⟩
  | dec r1 r2 => exact ⟨EncodedOpcode.dec r1 r2, EncodedFields.dec r1 r2⟩
  | mul r1 r2 r3 r4 => exact ⟨EncodedOpcode.mul r1 r2 r3 r4, EncodedFields.mul r1 r2 r3 r4⟩
  | ori r1 r2 imm => exact ⟨EncodedOpcode.ori r1 r2 imm, EncodedFields.ori r1 r2 imm⟩
  | andi r1 r2 imm => exact ⟨EncodedOpcode.andi r1 r2 imm, EncodedFields.andi r1 r2 imm⟩
  | addi r1 r2 imm => exact ⟨EncodedOpcode.addi r1 r2 imm, EncodedFields.addi r1 r2 imm⟩
  | mov r1 r2 => exact ⟨EncodedOpcode.mov r1 r2, EncodedFields.mov r1 r2⟩
  | sw r1 r2 => exact ⟨EncodedOpcode.sw r1 r2, EncodedFields.sw r1 r2⟩
  | lw r1 r2 => exact ⟨EncodedOpcode.lw r1 r2, EncodedFields.lw r1 r2⟩
  | movh r1 imm => exact ⟨EncodedOpcode.movh r1 imm, EncodedFields.movh r1 imm⟩
  | jmp r1 => exact ⟨EncodedOpcode.jmp r1, EncodedFields.jmp r1⟩
  | jz r1 => exact ⟨EncodedOpcode.jz r1, EncodedFields.jz r1⟩
  | jnz r1 => exact ⟨EncodedOpcode.jnz r1, EncodedFields.jnz r1⟩
  | jmpi imm => exact ⟨EncodedOpcode.jmpi imm, EncodedFields.jmpi imm⟩
  | jmpiz imm => exact ⟨EncodedOpcode.jmpiz imm, EncodedFields.jmpiz imm⟩
  | jmpinz imm => exact ⟨EncodedOpcode.jmpinz imm, EncodedFields.jmpinz imm⟩
  | read r1 => exact ⟨EncodedOpcode.read r1, EncodedFields.read r1⟩
  | draw r1 r2 => exact ⟨EncodedOpcode.draw r1 r2, EncodedFields.draw r1 r2⟩
  | clear => exact ⟨EncodedOpcode.clear, EncodedFields.clear⟩

/-- Settles O1: dispatch finds the operation by the opcode field, and the fields give the operands back. -/
theorem decodeInvertsEncode : Obligations.DecodeInvertsEncode := by
  intro m hm i
  obtain ⟨hopcode, hfields⟩ := encoded_laws i
  rw [decode_of_opcode hm (hopcode m), hfields m]

/-! ### Ignored bits (R72, R73) -/

/-- A field whose bits a mask has all set is the same in two words that agree under the mask. -/
theorem extract_eq_of_masked {w w' mask : Word} (h : w &&& mask = w' &&& mask) {lo len : Nat}
    (hmask : mask.extractLsb' lo len = BitVec.allOnes len) : w'.extractLsb' lo len = w.extractLsb' lo len := by
  have hcut := congrArg (·.extractLsb' lo len) h
  simpa only [BitVec.extractLsb'_and, hmask, BitVec.and_allOnes] using hcut.symm

/-- Every operation uses the six bits of the opcode field. -/
theorem usedBits_opcode (op : Op) : op.usedBits.extractLsb' 26 6 = BitVec.allOnes 6 := by
  cases op <;> rfl

/-- The used bits of an operation hold every field its instruction takes. -/
theorem instr_eq_of_usedBits {w w' : Word} {op : Op} (h : w &&& op.usedBits = w' &&& op.usedBits) :
    op.instr (fields w') = op.instr (fields w) := by
  have hr1 := @extract_eq_of_masked _ _ _ h 21 5
  have hr2 := @extract_eq_of_masked _ _ _ h 16 5
  have hr3 := @extract_eq_of_masked _ _ _ h 11 5
  have hr4 := @extract_eq_of_masked _ _ _ h 6 5
  have himm16 := @extract_eq_of_masked _ _ _ h 0 16
  have himm26 := @extract_eq_of_masked _ _ _ h 0 26
  cases op with
  | not | shl | shr | rotl | rotr | inc | dec | mov | sw | lw | draw =>
    simp only [Op.instr, fields, hr1 rfl, hr2 rfl]
  | xor | or | and | add | sub => simp only [Op.instr, fields, hr1 rfl, hr2 rfl, hr3 rfl]
  | mul => simp only [Op.instr, fields, hr1 rfl, hr2 rfl, hr3 rfl, hr4 rfl]
  | ori | andi | addi => simp only [Op.instr, fields, hr1 rfl, hr2 rfl, himm16 rfl]
  | movh => simp only [Op.instr, fields, hr1 rfl, himm16 rfl]
  | jmp | jz | jnz | read => simp only [Op.instr, fields, hr1 rfl]
  | jmpi | jmpiz | jmpinz => simp only [Op.instr, fields, himm26 rfl]
  | clear => rfl

/-- Settles O3: the used bits hold the opcode field, so dispatch answers alike, and every field the operation takes. -/
theorem ignoredBitsNeverMatter : Obligations.IgnoredBitsNeverMatter := by
  intro m w w' op hd h
  have hopcode : (fields w').opcode = (fields w).opcode := extract_eq_of_masked h (usedBits_opcode op)
  rw [decode_of_dispatch hd, decode_of_dispatch (hopcode ▸ hd), instr_eq_of_usedBits h]

/-! ### Undefined opcodes (R80, R81) -/

/-- The opcode values that some operation has are the values of the map, in another order. -/
theorem definedOpcodes_perm {m : OpcodeMap} (hm : m.wf) :
    ((List.finRange 64).filter fun k => !(Op.all.all fun op => m.code op != BitVec.ofFin k)).Perm
      ((Op.all.map m.code).map BitVec.toFin) := by
  have hinj : Function.Injective (BitVec.toFin : BitVec 6 → Fin 64) := fun a b h => BitVec.eq_of_toFin_eq h
  refine (List.perm_ext_iff_of_nodup ((List.nodup_finRange 64).filter _) (hm.map hinj)).2 fun k => ?_
  have hcode (op : Op) : m.code op = BitVec.ofFin k ↔ (m.code op).toFin = k :=
    ⟨fun h => h ▸ rfl, fun h => h ▸ rfl⟩
  simp [hcode]

theorem countP_undefinedOpcode {m : OpcodeMap} (hm : m.wf) :
    (List.finRange 64).countP (fun k => Op.all.all fun op => m.code op != BitVec.ofFin k) = 35 := by
  have hdefined := (definedOpcodes_perm hm).length_eq
  have hsplit := (List.finRange 64).length_eq_countP_add_countP
    fun k => Op.all.all fun op => m.code op != BitVec.ofFin k
  simp only [← List.countP_eq_length_filter, List.length_map, show Op.all.length = 29 from rfl] at hdefined
  simp only [List.length_finRange, Bool.not_eq_true, Bool.decide_eq_false, hdefined] at hsplit
  omega

/-- Settles O4: both answers of dispatch, and the 29 distinct values among the 64. -/
theorem undefinedOpcodesAreRejected : Obligations.UndefinedOpcodesAreRejected := by
  intro m hm
  refine ⟨fun w op => decode_of_opcode hm, fun w hw => ?_, countP_undefinedOpcode hm⟩
  exact decode_of_dispatch_none (dispatch_eq_none.2 fun op => (hw op).symm)

/-! ### Field positions (R71) -/

/-- Settles O2: each field is the quotient its bit positions give; the top one needs no remainder. -/
theorem decoderCutsFixedFields : Obligations.DecoderCutsFixedFields := by
  intro w
  have hw := w.isLt
  refine ⟨?_, extract_toNat w 21 5, extract_toNat w 16 5, extract_toNat w 11 5, extract_toNat w 6 5, ?_, ?_⟩
  · rw [fields, extract_toNat]
    omega
  · rw [fields, extract_toNat, pow_zero, Nat.div_one]
  · rw [fields, extract_toNat, pow_zero, Nat.div_one]

/-! ### Words written as an opcode and an operand part (R83) -/

/-- The fields of `OPC(op) : P`: the opcode, and every other field cut from P alone. -/
theorem fields_append (o : BitVec 6) (p : BitVec 26) :
    fields (o ++ p) =
      { opcode := o
        r1 := p.extractLsb' 21 5
        r2 := p.extractLsb' 16 5
        r3 := p.extractLsb' 11 5
        r4 := p.extractLsb' 6 5
        imm16 := p.extractLsb' 0 16
        imm26 := p } := by
  obtain ⟨hopcode, himm⟩ := fields_encJ o p
  have hcut (lo len : Nat) (h : lo + len ≤ 26) : (o ++ p).extractLsb' lo len = p.extractLsb' lo len :=
    BitVec.extractLsb'_append_eq_of_add_le h
  rw [Fields.mk.injEq]
  exact ⟨hopcode, hcut 21 5 (by decide), hcut 16 5 (by decide), hcut 11 5 (by decide), hcut 6 5 (by decide),
    hcut 0 16 (by decide), himm⟩

/-- An instruction's operands do not come from the opcode field. -/
theorem Op.instr_with_opcode (op : Op) (d : Fields) (o : BitVec 6) : op.instr { d with opcode := o } = op.instr d := by
  cases op <;> rfl

/-- A word `OPC(op) : P` decodes to the operation on the operands that P alone gives. -/
theorem decode_append {m : OpcodeMap} (hm : m.wf) (op : Op) (p : BitVec 26) {i : Instr}
    (hi : op.instr (fields (0#6 ++ p)) = i) : decode m (m.code op ++ p) = .instr i := by
  have hopcode : (fields (m.code op ++ p)).opcode = m.code op := by rw [fields_append]
  rw [decode_of_opcode hm hopcode, ← hi, fields_append, fields_append]
  exact congrArg Decoded.instr (op.instr_with_opcode ⟨0#6, _, _, _, _, _, _⟩ (m.code op))

/-- Settles O5: the operand part alone fixes the operands, and each one is evaluated. -/
theorem exampleWordsDecode : Obligations.ExampleWordsDecode := by
  intro m hm
  exact ⟨decode_append hm .add _ rfl, decode_append hm .rotl _ rfl, decode_append hm .mul _ rfl,
    decode_append hm .addi _ rfl, decode_append hm .movh _ rfl, decode_append hm .jmp _ rfl,
    decode_append hm .jmpi _ rfl, decode_append hm .clear _ rfl⟩

/-! ### Immediates (R75 to R78) -/

theorem toNat_zext32 (imm : Imm16) : (zext32 imm).toNat = imm.toNat :=
  BitVec.toNat_setWidth_of_le (by decide)

theorem toInt_sext32 (imm : Imm16) : (sext32 imm).toInt = imm.toInt :=
  BitVec.toInt_signExtend_of_le (by decide)

theorem toNat_sext32 (imm : Imm16) :
    (sext32 imm).toNat = imm.toNat + (if 0x8000 ≤ imm.toNat then 0xFFFF0000 else 0) := by
  have himm : (imm.setWidth 32).toNat = imm.toNat := toNat_zext32 imm
  rw [sext32, BitVec.toNat_signExtend, himm, BitVec.msb_eq_decide]
  simp only [decide_eq_true_eq]

theorem toNat_upper32 (imm : Imm16) : (upper32 imm).toNat = imm.toNat * 2 ^ 16 := by
  have himm := imm.isLt
  rw [upper32, BitVec.toNat_ofNat]
  omega

theorem toNat_target26 (imm : Imm26) : (target26 imm).toNat = imm.toNat * 4 := by
  have himm := imm.isLt
  rw [target26, BitVec.toNat_ofNat]
  omega

/-- Settles O8: the integer each form is. -/
theorem immediateForms : Obligations.ImmediateForms :=
  ⟨fun imm => ⟨toNat_zext32 imm, toNat_sext32 imm, toInt_sext32 imm, toNat_upper32 imm⟩, toNat_target26⟩

end Sys2Proof
end

section
/-! PROOFS for the statements of the encoding family, the assembler's part: the operands of a source line, and what the
pseudo-instructions do when their expansions run. A pseudo-instruction's frame is a `ChangesOnly`, which each of its
instructions gives and `ChangesOnly.trans` composes. -/

namespace Sys2Proof.Machine

/-! ### Assembled operands (R84) -/

/-- What a line of one jump target assembles to, once for the three operations. -/
theorem assemble_target {op : Op} (hop : op ∈ [Op.jmpi, .jmpiz, .jmpinz]) {v : Nat} (h4 : v % 4 = 0)
    (h : v < 2 ^ 28) :
    assemble ⟨op, [.num v]⟩ = some (op.instr (lineFields ⟨op, [.num v]⟩)) := by
  have hplaces : op.places = [SrcOperand.isTarget] := by
    cases op with
    | jmpi | jmpiz | jmpinz => rfl
    | _ => simp at hop
  exact if_pos (by simp [checkSource, hplaces, operandsMatch, isTarget_num h4 h])

/-- A label stands for the address it names. -/
theorem assembleItem_label {op : Op} (hop : op ∈ [Op.jmpi, .jmpiz, .jmpinz]) {table : List (String × Nat)}
    {name : String} {v : Nat} (hl : table.lookup name = some v) (addr : Nat) {i : Instr}
    (hi : assemble ⟨op, [.num v]⟩ = some i) :
    assembleItem table addr (.line ⟨op, [.label name]⟩) = some [i] := by
  rw [assembleItem_line, resolveLine_target hop hl, Option.bind_some, hi, Option.map_some]

theorem assemble_addi {a b : Nat} {v : Int} (ha : a < 32) (hb : b < 32) (hlo : -32768 ≤ v) (hhi : v ≤ 0xFFFF) :
    assemble ⟨.addi, [.reg a, .reg b, .num v]⟩ =
      some (.addi (BitVec.ofNat 5 a) (BitVec.ofNat 5 b) (BitVec.ofInt 16 v)) :=
  if_pos (by simp [checkSource, Op.places, operandsMatch, SrcOperand.isReg, SrcOperand.isSignedImm16, *])

/-- Settles O50: the checks accept the operands, and the fields hold their values. -/
theorem assembledOperands : Obligations.AssembledOperands := by
  refine ⟨fun v h4 hv => ?_, fun a b v ha hb hlo hhi => ?_⟩
  · have hjmpi := assemble_target (op := .jmpi) (by decide) h4 hv
    have hjmpiz := assemble_target (op := .jmpiz) (by decide) h4 hv
    have hjmpinz := assemble_target (op := .jmpinz) (by decide) h4 hv
    exact ⟨operandTarget (.num v), target26_operandTarget h4 hv, hjmpi, hjmpiz, hjmpinz, fun table name addr hl =>
      ⟨assembleItem_label (by decide) hl addr hjmpi, assembleItem_label (by decide) hl addr hjmpiz,
        assembleItem_label (by decide) hl addr hjmpinz⟩⟩
  · refine ⟨_, _, _, assemble_addi ha hb hlo (by omega), ?_, ?_, ?_⟩
    · rw [BitVec.toNat_ofNat, Nat.mod_eq_of_lt ha]
    · rw [BitVec.toNat_ofNat, Nat.mod_eq_of_lt hb]
    · rw [toInt_sext32]
      exact BitVec.toInt_ofInt_eq_self (by decide) hlo (by omega)

/-! ### Running a sequence -/

section
variable {i : Instr} {s t : State}

theorem runInstrs_cons (is : List Instr) (h : exec i s = .next t) (ht : t.status = .running) :
    runInstrs (i :: is) s = runInstrs is t := by
  simp only [runInstrs, h, if_pos ht]

theorem runInstrs_single (h : exec i s = .next t) (ht : t.status = .running) : runInstrs [i] s = some t :=
  runInstrs_cons [] h ht

end

/-! ### What one instruction of an expansion changes -/

/-- From s to t only rd, the flags and the PC changed, and the PC advanced by n. -/
structure ChangesOnly (s t : State) (rd : Reg) (n : Word) : Prop where
  others : ∀ i, i ≠ rd → i ≠ Reg.pc → i ≠ Reg.flags → t.x i = s.x i
  nextPc : t.pc = s.pc + n
  memory : SameMemory s t

theorem ChangesOnly.trans {s u t : State} {rd : Reg} {n k : Word} (h : ChangesOnly s u rd n)
    (h' : ChangesOnly u t rd k) : ChangesOnly s t rd (n + k) where
  others i hd hp hf := (h'.others i hd hp hf).trans (h.others i hd hp hf)
  nextPc := by rw [h'.nextPc, h.nextPc, BitVec.add_assoc]
  memory a := (h'.memory a).trans (h.memory a)

/-- Where the destination is r0 the result is discarded, so r0 reads as before too (R22). -/
theorem ChangesOnly.others_of_discarded {s t : State} {n : Word} (h : ChangesOnly s t 0#5 n) (i : Reg)
    (hp : i ≠ Reg.pc) (hf : i ≠ Reg.flags) : t.x i = s.x i := by
  by_cases h0 : i = 0#5
  · rw [h0, t.x_zero, s.x_zero]
  · exact h.others i h0 hp hf

section
variable (s : State) {r1 : Reg}

theorem aluResult_changesOnly (hp : Reg.pc ≠ r1) (v : Word) : ChangesOnly s (s.aluResult r1 v) r1 4 where
  others i h1 hip hif := by rw [State.x_aluResult, if_neg hip, if_neg hif, if_neg fun hc => h1 hc.1]
  nextPc := s.pc_aluResult_of_ne hp v
  memory := sameMemory_of_mem (s.mem_aluResult r1 v)

theorem moveResult_changesOnly (hp : Reg.pc ≠ r1) (v : Word) (zf : Bool) :
    ChangesOnly s (s.moveResult r1 v zf) r1 4 where
  others := (moveResult_registers s r1 v zf).others
  nextPc := s.pc_moveResult_of_ne hp v zf
  memory := sameMemory_of_mem (s.mem_moveResult r1 v zf)

theorem x_aluResult_self (h0 : r1 ≠ 0#5) (hp : r1 ≠ Reg.pc) (hf : r1 ≠ Reg.flags) (v : Word) :
    (s.aluResult r1 v).x r1 = v := by
  rw [State.x_aluResult, if_neg hp, if_neg hf, if_pos ⟨rfl, h0⟩]

theorem flags_aluResult (v : Word) : (s.aluResult r1 v).x Reg.flags = flagsWord v := by
  rw [State.x_aluResult, if_neg (by decide), if_pos rfl]

end

/-- A move to r0 advances the PC and changes nothing else (NOP, R87). -/
theorem moveResult_discarded (s : State) (v : Word) : OnlyPcAdvances s (s.moveResult 0#5 v false) where
  nextPc := s.pc_moveResult_of_ne (by decide) v false
  others i hp := by
    by_cases h0 : i = 0#5
    · rw [h0, State.x_zero, State.x_zero]
    · exact s.x_moveResult_of_ne v h0 hp fun _ => rfl

theorem samePorts_moveResult (s : State) (r1 : Reg) (v : Word) (zf : Bool) : SamePorts s (s.moveResult r1 v zf) :=
  ⟨s.drawCount_moveResult r1 v zf, s.events_moveResult r1 v zf, s.inputCount_moveResult r1 v zf⟩

/-! ### The shapes of the expansions -/

/-- One ALU instruction whose result goes to r0: it sets the flags by the result (CMP, TST, SETZ). -/
theorem run_discarded_alu {i : Instr} {s : State} {res : Word} (hs : s.status = .running)
    (hi : exec i s = .next (s.aluResult 0#5 res)) :
    ∃ t, runInstrs [i] s = some t ∧ t.x Reg.flags = flagsWord res ∧
      (∀ j, j ≠ Reg.pc → j ≠ Reg.flags → t.x j = s.x j) ∧ t.pc = s.pc + 4 ∧ SameMemory s t := by
  have hc := aluResult_changesOnly s (r1 := 0#5) (by decide) res
  exact ⟨_, runInstrs_single hi (by rw [State.status_aluResult, hs]), flags_aluResult s res,
    hc.others_of_discarded, hc.nextPc, hc.memory⟩

/-- An instruction that changes only rd, then an ALU instruction on rd: rd holds the second result, and Z is set by it
(LI, NEG). -/
theorem run_then_alu {i i' : Instr} {s u : State} {rd : Reg} {res : Word} (hp : rd ≠ Reg.pc) (hf : rd ≠ Reg.flags)
    (hi : exec i s = .next u) (hu : u.status = .running) (hc : ChangesOnly s u rd 4)
    (hi' : exec i' u = .next (u.aluResult rd res)) :
    ∃ t, runInstrs [i, i'] s = some t ∧ (rd ≠ 0#5 → t.x rd = res) ∧ (t.z = true ↔ res = 0) ∧
      ChangesOnly s t rd 8 := by
  refine ⟨u.aluResult rd res, ?_, fun h0 => x_aluResult_self u h0 hp hf res, z_aluResult u rd res,
    hc.trans (aluResult_changesOnly u hp.symm res)⟩
  rw [runInstrs_cons [i'] hi hu]
  exact runInstrs_single hi' (by rw [State.status_aluResult, hu])

/-! ### The values LI and NEG build -/

/-- The two halves of a word, as MOVH and ORI place them, are the word. -/
theorem upper32_or_zext32 (imm : Word) :
    upper32 (imm.extractLsb' 16 16) ||| zext32 (imm.extractLsb' 0 16) = imm := by
  have himm := imm.isLt
  apply BitVec.eq_of_toNat_eq
  rw [BitVec.toNat_or, toNat_upper32, toNat_zext32, extract_toNat, extract_toNat, ← Nat.shiftLeft_eq,
    ← Nat.shiftLeft_add_eq_or_of_lt (Nat.mod_lt _ (by decide)), Nat.shiftLeft_eq]
  omega

/-- Complement and increment is negation, in two's complement (R12). -/
theorem not_add_one (v : Word) : ~~~v + 1 = 0 - v :=
  (BitVec.neg_eq_not_add v).symm.trans (BitVec.zero_sub v).symm

/-! ### The pseudo-instructions -/

section
variable {s : State} (hs : s.status = .running)
include hs

theorem run_nop : ∃ t, runInstrs (expand .nop) s = some t ∧ OnlyPcAdvances s t ∧ SameMemory s t ∧ SamePorts s t :=
  ⟨_, runInstrs_single rfl (by rw [State.status_moveResult, hs]), moveResult_discarded s _,
    sameMemory_of_mem (State.mem_moveResult ..), samePorts_moveResult ..⟩

theorem run_cmp (ra rb : Reg) : ∃ t, runInstrs (expand (.cmp ra rb)) s = some t ∧ (t.z = true ↔ s.x ra = s.x rb) ∧
    (∀ i, i ≠ Reg.pc → i ≠ Reg.flags → t.x i = s.x i) ∧ t.pc = s.pc + 4 ∧ SameMemory s t := by
  obtain ⟨t, hrun, hflags, hframe⟩ := run_discarded_alu hs (i := .sub 0 ra rb) rfl
  exact ⟨t, hrun, (z_of_flags hflags).trans sub_eq_zero, hframe⟩

theorem run_tst (ra : Reg) : ∃ t, runInstrs (expand (.tst ra)) s = some t ∧ (t.z = true ↔ s.x ra = 0) ∧
    (∀ i, i ≠ Reg.pc → i ≠ Reg.flags → t.x i = s.x i) ∧ t.pc = s.pc + 4 ∧ SameMemory s t := by
  have hor : s.x ra ||| s.x 0#5 = s.x ra := by rw [s.x_zero, BitVec.or_zero]
  obtain ⟨t, hrun, hflags, hframe⟩ := run_discarded_alu hs (i := .or 0 ra 0) rfl
  exact ⟨t, hrun, z_of_flags (hflags.trans (congrArg flagsWord hor)), hframe⟩

theorem run_setz : ∃ t, runInstrs (expand .setz) s = some t ∧ t.x Reg.flags = 1 ∧
    (∀ i, i ≠ Reg.pc → i ≠ Reg.flags → t.x i = s.x i) ∧ t.pc = s.pc + 4 ∧ SameMemory s t := by
  obtain ⟨t, hrun, hflags, hframe⟩ := run_discarded_alu hs (i := .xor 0 0 0) rfl
  rw [BitVec.xor_self] at hflags
  exact ⟨t, hrun, hflags, hframe⟩

theorem run_clrz : ∃ t, runInstrs (expand .clrz) s = some t ∧ t.x Reg.flags = 0 ∧
    (∀ i, i ≠ Reg.pc → i ≠ Reg.flags → t.x i = s.x i) ∧ t.pc = s.pc + 4 ∧ SameMemory s t := by
  have hc := moveResult_changesOnly s (r1 := Reg.flags) (by decide) (s.x 0#5) false
  have hflags := (moveResult_registers s Reg.flags (s.x 0#5) false).result (by decide) (by decide) fun _ => rfl
  exact ⟨_, runInstrs_single rfl (by rw [State.status_moveResult, hs]), hflags.trans s.x_zero,
    fun i hp hf => hc.others i hf hp hf, hc.nextPc, hc.memory⟩

theorem run_li {rd : Reg} (imm : Word) (hp : rd ≠ Reg.pc) (hf : rd ≠ Reg.flags) :
    ∃ t, runInstrs (expand (.li rd imm)) s = some t ∧ (rd ≠ 0#5 → t.x rd = imm ∧ (t.z = true ↔ imm = 0)) ∧
      ChangesOnly s t rd 8 := by
  obtain ⟨t, hrun, hres, hz, hc⟩ := run_then_alu hp hf (i := .movh rd (imm.extractLsb' 16 16))
    (i' := .ori rd rd (imm.extractLsb' 0 16)) rfl (by rw [State.status_moveResult, hs])
    (moveResult_changesOnly s hp.symm _ _) rfl
  refine ⟨t, hrun, fun h0 => ?_, hc⟩
  rw [(moveResult_registers s rd _ _).result h0 hp fun h => absurd h hf, upper32_or_zext32] at hres hz
  exact ⟨hres h0, hz⟩

theorem run_neg {rd : Reg} (rs : Reg) (hp : rd ≠ Reg.pc) (hf : rd ≠ Reg.flags) :
    ∃ t, runInstrs (expand (.neg rd rs)) s = some t ∧
      (rd ≠ 0#5 → t.x rd = 0 - s.x rs ∧ (t.z = true ↔ s.x rs = 0)) ∧ ChangesOnly s t rd 8 := by
  obtain ⟨t, hrun, hres, hz, hc⟩ := run_then_alu hp hf (i := .not rd rs) (i' := .inc rd rd) rfl
    (by rw [State.status_aluResult, hs]) (aluResult_changesOnly s hp.symm _) rfl
  refine ⟨t, hrun, fun h0 => ?_, hc⟩
  rw [x_aluResult_self s h0 hp hf, not_add_one] at hres hz
  exact ⟨hres h0, hz.trans (by rw [BitVec.ofNat_eq_ofNat, BitVec.zero_sub, BitVec.neg_eq_zero_iff])⟩

theorem run_jmpi (imm : Imm26) :
    ∃ t, runInstrs [.jmpi imm] s = some t ∧ JumpEffect s t true (target26 imm) :=
  ⟨_, runInstrs_single rfl (by rw [State.status_jump, hs]), jump_effect s true (target26 imm)⟩

end

/-- A jump to its own address changes no register at all (HALT, R87). -/
theorem JumpEffect.sameRegisters {s t : State} {target : Word} (h : JumpEffect s t true target)
    (hself : target = s.pc) : SameRegisters s t := by
  intro i
  by_cases hp : i = Reg.pc
  · rw [hp]
    exact h.nextPc.trans hself
  · exact h.others i hp

/-- Settles O49: a row of the table for each pseudo-instruction, by the shape of its expansion. -/
theorem pseudoInstructionEffects : Obligations.PseudoInstructionEffects := by
  intro s hs
  refine ⟨run_nop hs, run_cmp hs, run_tst hs, run_setz hs, run_clrz hs, fun rd imm hp hf => ?_,
    fun rd rs hp hf => ?_, fun target => ?_, fun self hself => ?_⟩
  · obtain ⟨t, hrun, hres, hc⟩ := run_li hs imm hp hf
    exact ⟨t, hrun, hres, hc.others, hc.nextPc, hc.memory⟩
  · obtain ⟨t, hrun, hres, hc⟩ := run_neg hs rs hp hf
    exact ⟨t, hrun, hres, hc.others, hc.nextPc, hc.memory⟩
  · obtain ⟨t, hrun, hjump⟩ := run_jmpi hs target
    exact ⟨t, hrun, hjump.nextPc, hjump.others, hjump.memory⟩
  · obtain ⟨t, hrun, hjump⟩ := run_jmpi hs self
    exact ⟨t, hrun, hjump.sameRegisters hself, hjump.memory⟩

end Sys2Proof.Machine
end

section
/-! PROOFS for the statements of the ALU family: the words, results, flags and frames of the 16 ALU instructions. Each
clause is `encodesAs_*` for the word and `alu_meaning` for the effect, and what is left of an instruction is its integer:
what its result word is as a number, and when that word is 0. -/

namespace Sys2Proof.Machine

/-! ### The words (R82, R83) -/

section
variable {i : Instr} {op : Op} {n : Nat} {r1 r2 r3 r4 : Reg} {imm : Imm16}

theorem encodesAs_of_toNat (h : ∀ m, (encode m i).toNat = (m.code op).toNat * 2 ^ 26 + n) : EncodesAs i op n :=
  fun m => ⟨h m, fun hm => decodeInvertsEncode m hm i⟩

theorem encodesAs_four_registers (h : ∀ m, encode m i = encR (m.code op) r1 r2 r3 r4) :
    EncodesAs i op (r1.toNat * 2 ^ 21 + r2.toNat * 2 ^ 16 + r3.toNat * 2 ^ 11 + r4.toNat * 2 ^ 6) :=
  encodesAs_of_toNat fun m => by simp only [h, encR_toNat, Nat.add_assoc]

theorem encodesAs_three_registers (h : ∀ m, encode m i = encR (m.code op) r1 r2 r3 0) :
    EncodesAs i op (r1.toNat * 2 ^ 21 + r2.toNat * 2 ^ 16 + r3.toNat * 2 ^ 11) := by
  simpa using encodesAs_four_registers h

theorem encodesAs_two_registers (h : ∀ m, encode m i = encR (m.code op) r1 r2 0 0) :
    EncodesAs i op (r1.toNat * 2 ^ 21 + r2.toNat * 2 ^ 16) := by
  simpa using encodesAs_three_registers h

theorem encodesAs_immediate (h : ∀ m, encode m i = encI (m.code op) r1 r2 imm) :
    EncodesAs i op (r1.toNat * 2 ^ 21 + r2.toNat * 2 ^ 16 + imm.toNat) :=
  encodesAs_of_toNat fun m => by simp only [h, encI_toNat, Nat.add_assoc]

end

/-! ### One destination (R100) -/

/-- The meaning of an instruction that ends in `aluResult`, for the integer its result word stands for and the
condition under which that word is 0. -/
theorem alu_meaning {i : Instr} {s : State} {r1 : Reg} {v : Word} {res : Nat} {isZero : Prop}
    (hi : exec i s = .next (s.aluResult r1 v)) (hv : v.toNat = res % 2 ^ 32) (hz : v = 0#32 ↔ isZero) :
    ∃ t, exec i s = .next t ∧ AluEffect s t r1 res ∧ (t.z = true ↔ isZero) :=
  ⟨_, hi, aluResult_effect s r1 hv, (z_aluResult s r1 v).trans hz⟩

theorem word_eq_zero_iff (v : Word) : v = 0#32 ↔ v.toNat = 0 := BitVec.toNat_eq

/-- The integer of a result is below 2^32 where the rule's expression is the word's own value. -/
theorem toNat_eq_mod {v : Word} {n : Nat} (h : v.toNat = n) : v.toNat = n % 2 ^ 32 := by
  rw [← h, Nat.mod_eq_of_lt v.isLt]

/-! ### Logic (R101 to R104, R114, R115) -/

theorem toNat_complement (v : Word) : (~~~v).toNat = 0xFFFFFFFF - v.toNat := BitVec.toNat_not

theorem complement_eq_zero_iff (v : Word) : ~~~v = 0#32 ↔ v = 0xFFFFFFFF :=
  BitVec.not_eq_comm

/-- Settles O10: each result word is the integer of its rule, which is below 2^32 already. -/
theorem logicInstructions : Obligations.LogicInstructions := by
  intro r1 r2 r3 s
  refine ⟨⟨encodesAs_two_registers fun _ => rfl, alu_meaning rfl (toNat_eq_mod ?not) (complement_eq_zero_iff _)⟩,
    ⟨encodesAs_three_registers fun _ => rfl, alu_meaning rfl (toNat_eq_mod ?xor) BitVec.xor_eq_zero_iff⟩,
    ⟨encodesAs_three_registers fun _ => rfl, alu_meaning rfl (toNat_eq_mod ?or) BitVec.or_eq_zero_iff⟩,
    ⟨encodesAs_three_registers fun _ => rfl, alu_meaning rfl (toNat_eq_mod ?and) ?andZero⟩⟩
  case not => exact toNat_complement _
  case xor => exact BitVec.toNat_xor ..
  case or => exact BitVec.toNat_or ..
  case and => exact BitVec.toNat_and ..
  case andZero => rw [word_eq_zero_iff, BitVec.toNat_and]

theorem zext32_eq_zero_iff (imm : Imm16) : zext32 imm = 0#32 ↔ imm = 0 := by
  rw [word_eq_zero_iff, toNat_zext32, BitVec.toNat_eq]
  rfl

theorem toNat_or_zext32 (v : Word) (imm : Imm16) : (v ||| zext32 imm).toNat = v.toNat ||| imm.toNat := by
  rw [BitVec.toNat_or, toNat_zext32]

theorem toNat_and_zext32 (v : Word) (imm : Imm16) : (v &&& zext32 imm).toNat = v.toNat &&& imm.toNat := by
  rw [BitVec.toNat_and, toNat_zext32]

/-- A zero-extended immediate masks the upper half away. -/
theorem and_imm16_eq_low_half (n : Nat) (imm : Imm16) : n &&& imm.toNat = n % 2 ^ 16 &&& imm.toNat := by
  rw [← Nat.and_two_pow_sub_one_eq_mod, Nat.and_assoc, Nat.and_comm (2 ^ 16 - 1), Nat.and_two_pow_sub_one_eq_mod,
    Nat.mod_eq_of_lt imm.isLt]

/-- Settles O14: as for OR and AND, on the integer the zero-extended immediate is. -/
theorem orAndImmediate : Obligations.OrAndImmediate := by
  intro r1 r2 imm s
  refine ⟨⟨encodesAs_immediate fun _ => rfl, alu_meaning rfl (toNat_eq_mod (toNat_or_zext32 _ imm)) ?oriZero⟩,
    ⟨encodesAs_immediate fun _ => rfl, alu_meaning rfl (toNat_eq_mod (toNat_and_zext32 _ imm)) ?andiZero⟩⟩
  case oriZero => exact BitVec.or_eq_zero_iff.trans (and_congr_right' (zext32_eq_zero_iff imm))
  case andiZero => rw [word_eq_zero_iff, toNat_and_zext32, and_imm16_eq_low_half]

/-! ### Shifts and rotates by one bit (R105 to R108) -/

theorem toNat_shiftLeft_one (v : Word) : (v <<< 1).toNat = v.toNat * 2 % 2 ^ 32 := by
  rw [BitVec.toNat_shiftLeft, Nat.shiftLeft_eq, pow_one]

theorem toNat_shiftRight_one (v : Word) : (v >>> 1).toNat = v.toNat / 2 := by
  rw [BitVec.toNat_ushiftRight, Nat.shiftRight_eq_div_pow, pow_one]

/-- The bit a rotate brings in stands where the shifted word is 0, so the two are added. -/
theorem toNat_rotateLeft_one (v : Word) :
    (v.rotateLeft 1).toNat = v.toNat * 2 % 2 ^ 32 + v.toNat / 2 ^ 31 := by
  have hv := v.isLt
  have hlow : v.toNat * 2 % 2 ^ 32 = (v.toNat % 2 ^ 31) <<< 1 := by rw [Nat.shiftLeft_eq]; omega
  have hin : v.toNat / 2 ^ 31 < 2 ^ 1 := by omega
  rw [hlow, Nat.shiftLeft_add_eq_or_of_lt hin, ← hlow]
  simp [BitVec.toNat_rotateLeft, Nat.shiftLeft_eq, Nat.shiftRight_eq_div_pow]

theorem toNat_rotateRight_one (v : Word) :
    (v.rotateRight 1).toNat = v.toNat / 2 + v.toNat % 2 * 2 ^ 31 := by
  have hv := v.isLt
  have hhigh : v.toNat % 2 * 2 ^ 31 = v.toNat * 2 ^ 31 % 2 ^ 32 := by omega
  have hlow : v.toNat / 2 < 2 ^ 31 := by omega
  rw [Nat.add_comm, ← Nat.shiftLeft_eq, Nat.shiftLeft_add_eq_or_of_lt hlow, Nat.or_comm, Nat.shiftLeft_eq, hhigh]
  simp [BitVec.toNat_rotateRight, Nat.shiftLeft_eq, Nat.shiftRight_eq_div_pow]

theorem rotateLeft_one_eq_zero_iff (v : Word) : v.rotateLeft 1 = 0#32 ↔ v = 0 := by
  rw [word_eq_zero_iff, toNat_rotateLeft_one, BitVec.ofNat_eq_ofNat, word_eq_zero_iff, Nat.add_eq_zero_iff]
  omega

theorem rotateRight_one_eq_zero_iff (v : Word) : v.rotateRight 1 = 0#32 ↔ v = 0 := by
  rw [word_eq_zero_iff, toNat_rotateRight_one, BitVec.ofNat_eq_ofNat, word_eq_zero_iff]
  omega

/-- Settles O11: the shifts and rotates as quotients and remainders. -/
theorem shiftsAndRotatesByOne : Obligations.ShiftsAndRotatesByOne := by
  intro r1 r2 s
  refine ⟨⟨encodesAs_two_registers fun _ => rfl, alu_meaning rfl (toNat_shiftLeft_one _) ?shlZero⟩,
    ⟨encodesAs_two_registers fun _ => rfl, alu_meaning rfl (toNat_eq_mod (toNat_shiftRight_one _)) ?shrZero⟩,
    ⟨encodesAs_two_registers fun _ => rfl, alu_meaning rfl (toNat_eq_mod (toNat_rotateLeft_one _))
      (rotateLeft_one_eq_zero_iff _)⟩,
    ⟨encodesAs_two_registers fun _ => rfl, alu_meaning rfl (toNat_eq_mod (toNat_rotateRight_one _))
      (rotateRight_one_eq_zero_iff _)⟩⟩
  case shlZero =>
    rw [word_eq_zero_iff, toNat_shiftLeft_one]
    omega
  case shrZero =>
    rw [word_eq_zero_iff, toNat_shiftRight_one]
    omega

/-! ### Addition and subtraction modulo 2^32 (R109 to R112, R116) -/

theorem toNat_sub_word (a b : Word) : (a - b).toNat = (a.toNat + 2 ^ 32 - b.toNat) % 2 ^ 32 := by
  have hb := b.isLt
  rw [BitVec.toNat_sub]
  omega

theorem add_one_eq_zero_iff (v : Word) : v + 1 = 0#32 ↔ v = 0xFFFFFFFF :=
  add_eq_zero_iff_eq_neg

/-- Settles O12: BitVec addition and subtraction are those of integers modulo 2^32. -/
theorem addSubIncDec : Obligations.AddSubIncDec := by
  intro r1 r2 r3 s
  refine ⟨⟨encodesAs_three_registers fun _ => rfl, alu_meaning rfl (BitVec.toNat_add ..) ?addZero⟩,
    ⟨encodesAs_three_registers fun _ => rfl, alu_meaning rfl (toNat_sub_word ..) sub_eq_zero⟩,
    ⟨encodesAs_two_registers fun _ => rfl, alu_meaning rfl (BitVec.toNat_add ..) (add_one_eq_zero_iff _)⟩,
    ⟨encodesAs_two_registers fun _ => rfl, alu_meaning rfl (toNat_sub_word _ 1) sub_eq_zero⟩⟩
  case addZero => rw [word_eq_zero_iff, BitVec.toNat_add]

/-- Settles O15: the sum with the integer the sign-extended immediate is. -/
theorem addImmediate : Obligations.AddImmediate := by
  intro r1 r2 imm s
  refine ⟨encodesAs_immediate fun _ => rfl, ?_⟩
  rintro res rfl
  have hsum : (s.x r2 + sext32 imm).toNat =
      ((s.x r2).toNat + (imm.toNat + (if 0x8000 ≤ imm.toNat then 0xFFFF0000 else 0))) % 2 ^ 32 := by
    rw [BitVec.toNat_add, toNat_sext32]
  exact alu_meaning rfl hsum (by rw [word_eq_zero_iff, hsum])

/-! ### Multiplication (R113) -/

/-- Where MUL ends: the low word to r1, the high word to r2, Z from the low word, then the sequential PC. -/
def State.mulResult (s : State) (r1 r2 : Reg) (lo hi : Word) : State :=
  (((s.setX r1 lo).setX r2 hi).setZ lo).advance s.pc

theorem exec_mul (r1 r2 r3 r4 : Reg) (s : State) : exec (.mul r1 r2 r3 r4) s =
    .next (s.mulResult r1 r2 (BitVec.ofNat 32 (product (s.x r3) (s.x r4)))
      (BitVec.ofNat 32 (product (s.x r3) (s.x r4) / 2 ^ 32))) := rfl

section
variable (s : State) (r1 r2 : Reg) (lo hi : Word)

theorem State.x_mulResult_of_ne {i : Reg} (hp : i ≠ Reg.pc) (hf : i ≠ Reg.flags) :
    (s.mulResult r1 r2 lo hi).x i =
      if i = r2 ∧ i ≠ 0#5 then hi else if i = r1 ∧ i ≠ 0#5 then lo else s.x i := by
  rw [State.mulResult, State.x_advance_of_ne _ _ hp, State.x_setZ, if_neg hf, State.x_setX, State.x_setX]

theorem State.flags_mulResult : (s.mulResult r1 r2 lo hi).x Reg.flags = flagsWord lo := by
  rw [State.mulResult, State.x_advance_of_ne _ _ (by decide), State.x_setZ, if_pos rfl]

/-- The second write wins in r30 as in every slot. -/
theorem State.sequentialPc_mulResult : SequentialPc s (s.mulResult r1 r2 lo hi)
    (if r2 = Reg.pc then some hi else if r1 = Reg.pc then some lo else none) := by
  refine sequentialPc_of (after := (((s.setX r1 lo).setX r2 hi).setZ lo).pc) ?_ ?_
  · rw [State.mulResult, State.pc, State.x_advance, if_pos rfl, State.config_setZ, State.config_setX,
      State.config_setX]
  · rw [State.pc_setZ, State.pc, State.x_setX, State.x_setX]
    by_cases h2 : r2 = Reg.pc
    · simp [h2]
    · by_cases h1 : r1 = Reg.pc
      · simp [h1, h2, Ne.symm h2]
      · simp [h1, h2, Ne.symm h1, Ne.symm h2, State.pc]

theorem State.sameMemory_mulResult : SameMemory s (s.mulResult r1 r2 lo hi) :=
  sameMemory_of_mem (by simp [State.mulResult])

theorem State.samePorts_mulResult : SamePorts s (s.mulResult r1 r2 lo hi) := by
  constructor <;> simp [State.mulResult]

theorem State.sameRun_mulResult : SameRun s (s.mulResult r1 r2 lo hi) := by
  constructor <;> simp [State.mulResult]

end

theorem product_lt (a b : Word) : product a b < 2 ^ 64 :=
  (Nat.mul_lt_mul'' a.isLt b.isLt).trans_eq (by norm_num)

/-- Settles O13: the two writes in their order, through the read laws of `State.mulResult`. -/
theorem multiplyToTwoWords : Obligations.MultiplyToTwoWords := by
  intro r1 r2 r3 r4 s
  refine ⟨encodesAs_four_registers fun _ => rfl, fun p hp => ?_⟩
  have hproduct : product (s.x r3) (s.x r4) = p := hp.symm
  have hlt := product_lt (s.x r3) (s.x r4)
  have hexec := exec_mul r1 r2 r3 r4 s
  rw [hproduct] at hlt hexec
  have hhi : p / 2 ^ 32 < 2 ^ 32 := by omega
  have hlo : (BitVec.ofNat 32 p).toNat = p % 2 ^ 32 := BitVec.toNat_ofNat ..
  refine ⟨hlt, _, hexec, fun h0 h12 hpc hf => ?_, fun h0 hpc hf => ?_, State.x_zero _, ?_,
    fun i h1 h2 hpc hf => ?_, s.sequentialPc_mulResult .., State.sameMemory_mulResult s r1 r2 _ _, s.samePorts_mulResult ..,
    s.sameRun_mulResult ..⟩
  · rw [s.x_mulResult_of_ne _ _ _ _ hpc hf, if_neg fun h => h12 h.1, if_pos ⟨rfl, h0⟩, hlo]
  · rw [s.x_mulResult_of_ne _ _ _ _ hpc hf, if_pos ⟨rfl, h0⟩, BitVec.toNat_ofNat, Nat.mod_eq_of_lt hhi]
  · rw [s.flags_mulResult, flagsWord_of_toNat hlo]
  · rw [s.x_mulResult_of_ne _ _ _ _ hpc hf, if_neg fun h => h2 h.1, if_neg fun h => h1 h.1]

/-! ### Testing the sign bit (R118) -/

/-- An instruction that completes, then an ALU instruction: Z is set by the second result. -/
theorem run_pair_z {i i' : Instr} {s u : State} {rd : Reg} {res : Word} {isZero : Prop} (hi : exec i s = .next u)
    (hu : u.status = .running) (hi' : exec i' u = .next (u.aluResult rd res)) (hz : res = 0#32 ↔ isZero) :
    ∃ t, runInstrs [i, i'] s = some t ∧ (t.z = true ↔ isZero) := by
  refine ⟨u.aluResult rd res, ?_, (z_aluResult u rd res).trans hz⟩
  rw [runInstrs_cons [i'] hi hu]
  exact runInstrs_single hi' (by rw [State.status_aluResult, hu])

/-- ROTL brings bit 31 to bit 0, which the mask 1 keeps. -/
theorem rotateLeft_and_one_eq_zero_iff (v : Word) : v.rotateLeft 1 &&& zext32 1 = 0#32 ↔ v.toNat < 2 ^ 31 := by
  have hv := v.isLt
  have hbit0 : (v.toNat * 2 % 2 ^ 32 + v.toNat / 2 ^ 31) % 2 = v.toNat / 2 ^ 31 := by omega
  have hmask : (1 : Imm16).toNat = 1 := rfl
  rw [word_eq_zero_iff, toNat_and_zext32, toNat_rotateLeft_one, hmask, Nat.and_one_is_mod, hbit0]
  omega

/-- MOVH builds the mask of bit 31 alone. -/
theorem and_sign_mask_eq_zero_iff (v : Word) : v &&& upper32 0x8000 = 0#32 ↔ v.toNat < 2 ^ 31 := by
  have hv := v.isLt
  have hmask : (upper32 0x8000).toNat = 2 ^ 31 := by decide
  rw [word_eq_zero_iff, BitVec.toNat_and, hmask, Nat.and_two_pow, Nat.testBit_eq_decide_div_mod_eq, Nat.mul_eq_zero, Bool.toNat_eq_zero, decide_eq_false_iff_not]
  omega

/-- Settles O51: the second instruction of either idiom keeps bit 31 of rs and no other bit. -/
theorem signBitIdioms : Obligations.SignBitIdioms := by
  intro s rt rs hs h0 hpc hf
  refine ⟨run_pair_z rfl (by rw [State.status_aluResult, hs]) rfl ?_, fun rm hm0 hmpc hmf hsm hspc hsf =>
    run_pair_z rfl (by rw [State.status_moveResult, hs]) rfl ?_⟩
  · rw [x_aluResult_self s h0 hpc hf]
    exact rotateLeft_and_one_eq_zero_iff _
  · have hmask := moveResult_registers s rm (upper32 0x8000) s.config.zfMovh
    rw [hmask.others rs hsm hspc hsf, hmask.result hm0 hmpc fun h => absurd h hmf]
    exact and_sign_mask_eq_zero_iff _

end Sys2Proof.Machine
end

section
/-! PROOFS for the statements of the data movement family: MOV, SW, LW and MOVH. A move that completes is a
`move_meaning`; SW and LW have one equation for an access in range and one for the fault out of range. -/

namespace Sys2Proof.Machine

/-! ### A move that completes (R141, R143, R144) -/

theorem sameRun_moveResult (s : State) (r1 : Reg) (v : Word) (zf : Bool) : SameRun s (s.moveResult r1 v zf) :=
  ⟨s.status_moveResult r1 v zf, s.cancelRequested_moveResult r1 v zf, s.cancelPolls_moveResult r1 v zf,
    s.config_moveResult r1 v zf⟩

/-- The meaning of an instruction that ends in `moveResult`: its registers and its frame. -/
theorem move_meaning {i : Instr} {s : State} {r1 : Reg} {v : Word} {zf : Bool}
    (hi : exec i s = .next (s.moveResult r1 v zf)) :
    ∃ t, exec i s = .next t ∧ MoveRegisters s t r1 v zf ∧ SameMemory s t ∧ SamePorts s t ∧ SameRun s t :=
  ⟨_, hi, moveResult_registers s r1 v zf, sameMemory_of_mem (s.mem_moveResult r1 v zf),
    samePorts_moveResult s r1 v zf, sameRun_moveResult s r1 v zf⟩

/-- Settles O16: MOV is the move of x[r2] with the flag update off. -/
theorem moveRegister : Obligations.MoveRegister := by
  intro r1 r2 s
  exact ⟨encodesAs_two_registers fun _ => rfl, move_meaning rfl⟩

/-- The word of an instruction of format U, whose second register field is 0 (R73). -/
theorem encodesAs_register_immediate {i : Instr} {op : Op} {r1 : Reg} {imm : Imm16}
    (h : ∀ m, encode m i = encI (m.code op) r1 0 imm) : EncodesAs i op (r1.toNat * 2 ^ 21 + imm.toNat) := by
  simpa using encodesAs_immediate h

/-- Settles O19: MOVH is the move of `upper32 imm`, which is the integer imm16 × 2^16. -/
theorem moveUpperImmediate : Obligations.MoveUpperImmediate := by
  intro r1 imm s
  obtain ⟨t, hexec, heffect⟩ := move_meaning (i := .movh r1 imm) (s := s) rfl
  exact ⟨encodesAs_register_immediate fun _ => rfl, t, upper32 imm, hexec, toNat_upper32 imm, heffect⟩

/-! ### The load and the store, in range and out of range -/

section
variable {s : State} {r1 r2 : Reg}

theorem exec_sw_of_out (h : ¬ byteAddress (s.x r1) + 4 ≤ s.config.memBytes) :
    exec (.sw r1 r2) s = .next (s.takeFault (.memFault .store (byteAddress (s.x r1)) s.pc)) := by
  simp only [exec, execSw, State.memWrite_of_out h]

theorem exec_lw_of_inRange (h : byteAddress (s.x r2) + 4 ≤ s.config.memBytes) :
    exec (.lw r1 r2) s = .next (s.moveResult r1 (s.mem.word (byteAddress (s.x r2))) s.config.zfLw) := by
  simp only [exec, execLw, State.memRead_of_inRange h]

theorem exec_lw_of_out (h : ¬ byteAddress (s.x r2) + 4 ≤ s.config.memBytes) :
    exec (.lw r1 r2) s = .next (s.takeFault (.memFault .load (byteAddress (s.x r2)) s.pc)) := by
  simp only [exec, execLw, State.memRead_of_out h]

end

theorem State.byte_stored (s : State) (r1 r2 : Reg) (b : Nat) :
    (s.stored r1 r2).byte b = (s.mem.setWord (byteAddress (s.x r1)) (s.x r2)).byte b := by
  rw [State.byte, State.mem_stored]

theorem samePorts_stored (s : State) (r1 r2 : Reg) : SamePorts s (s.stored r1 r2) :=
  ⟨State.drawCount_advance _ _, State.events_advance _ _, State.inputCount_advance _ _⟩

theorem sameRun_stored (s : State) (r1 r2 : Reg) : SameRun s (s.stored r1 r2) :=
  ⟨State.status_stored, State.cancelRequested_stored, State.cancelPolls_advance _ _, State.config_stored⟩

/-- Settles O17: in range the byte laws of a stored word, out of range the fault that changes the status alone. -/
theorem storeWord : Obligations.StoreWord := by
  rintro r1 r2 s a rfl
  refine ⟨encodesAs_two_registers fun _ => rfl, rfl, fun hin => ?_, fun hout => ?_⟩
  · refine ⟨s.stored r1 r2, exec_sw_of_inRange hin, ?_⟩
    simp only [State.byte_stored]
    obtain ⟨h0, h1, h2, h3⟩ := s.mem.toNat_byte_setWord (byteAddress (s.x r1)) (s.x r2)
    exact ⟨h0, h1, h2, h3, fun b hb => Memory.byte_setWord_of_out hb _, onlyPcAdvances_stored s r1 r2,
      samePorts_stored s r1 r2, sameRun_stored s r1 r2⟩
  · exact ⟨_, exec_sw_of_out hout, takeFault_onlyStatus s _⟩

/-- Settles O18: in range the move of the word at the address, out of range the fault that changes the status
alone. -/
theorem loadWord : Obligations.LoadWord := by
  rintro r1 r2 s a rfl
  refine ⟨encodesAs_two_registers fun _ => rfl, fun hin => ?_, fun hout => ?_⟩
  · obtain ⟨t, hexec, heffect⟩ := move_meaning (exec_lw_of_inRange (r1 := r1) hin)
    exact ⟨t, _, hexec, s.mem.toNat_word _, heffect⟩
  · exact ⟨_, exec_lw_of_out hout, takeFault_onlyStatus s _⟩

/-! ### The round trip (R145) -/

/-- A word depends on its own four bytes alone. -/
theorem Memory.word_eq_of_bytes {m n : Memory} {a : Nat} (h : ∀ k, k < 4 → m.byte (a + k) = n.byte (a + k)) :
    m.word a = n.word a := by
  have h0 : m.byte a = n.byte a := h 0 (by decide)
  simp only [Memory.word, h0, h 1 (by decide), h 2 (by decide), h 3 (by decide)]

/-- Where the four bytes are as the store left them, the word there is the word stored. -/
theorem word_of_stored {s u : State} {ra rb : Reg}
    (h : ∀ k, k < 4 → u.byte (byteAddress (s.x ra) + k) = (s.stored ra rb).byte (byteAddress (s.x ra) + k)) :
    u.mem.word (byteAddress (s.x ra)) = s.x rb :=
  calc u.mem.word (byteAddress (s.x ra))
      = (s.stored ra rb).mem.word (byteAddress (s.x ra)) := Memory.word_eq_of_bytes h
    _ = s.x rb := by rw [State.mem_stored, Memory.word_setWord]

/-- Settles O20: the load is in range because the store was, and moves the word stored. -/
theorem storeThenLoadRoundTrips : Obligations.StoreThenLoadRoundTrips := by
  intro ra rb rc s hin
  refine ⟨s.stored ra rb, exec_sw_of_inRange hin, fun u hra hconfig hbytes => ?_⟩
  have hload := exec_lw_of_inRange (s := u) (r1 := rc) (r2 := ra) (by rwa [hra, hconfig])
  rw [hra, word_of_stored hbytes, hconfig] at hload
  exact ⟨_, hload, u.status_moveResult _ _ _, (moveResult_registers u rc _ _).result⟩

end Sys2Proof.Machine
end

section
/-! PROOFS for the statements of the control family: the six jumps, the fetch fault a bad target ends in, the step that
runs the decoded instruction, halting, calling, and the instructions that write r30. A jump's effect is `jump_effect`;
what an instruction writes to r30 is tied to its rule's integer once, in `completesWritingPc_or_loadFault`. -/

namespace Sys2Proof.Machine

/-! ### The six jumps (R164 to R169) -/

/-- The word of a format whose one operand is the register r1 (R73). -/
theorem encodesAs_register {i : Instr} {op : Op} {r1 : Reg} (h : ∀ m, encode m i = encR (m.code op) r1 0 0 0) :
    EncodesAs i op (r1.toNat * 2 ^ 21) := by
  simpa using encodesAs_two_registers h

/-- The word of format J (R73). -/
theorem encodesAs_imm26 {i : Instr} {op : Op} {imm : Imm26} (h : ∀ m, encode m i = encJ (m.code op) imm) :
    EncodesAs i op imm.toNat :=
  encodesAs_of_toNat fun m => by rw [h, encJ_toNat]

/-- The meaning of an instruction that ends in `jump`, for the condition its rule states. -/
theorem jump_meaning {i : Instr} {s : State} {taken cond : Bool} {target : Word}
    (hi : exec i s = .next (s.jump taken target)) (hcond : taken = cond) :
    ∃ t, exec i s = .next t ∧ JumpEffect s t cond target :=
  ⟨_, hi, hcond ▸ jump_effect s taken target⟩

/-- Settles O22: each word by its format, each effect by the condition the jump tests. -/
theorem registerTargetJumps : Obligations.RegisterTargetJumps := by
  intro r1 s
  exact ⟨⟨encodesAs_register fun _ => rfl, jump_meaning rfl rfl⟩,
    ⟨encodesAs_register fun _ => rfl, jump_meaning rfl s.z_eq_odd⟩,
    ⟨encodesAs_register fun _ => rfl, jump_meaning rfl s.not_z_eq_even⟩⟩

/-- Settles O23: imm26 × 4 is below 2^32, so the integer fixes the target word. -/
theorem immediateTargetJumps : Obligations.ImmediateTargetJumps := by
  intro imm s target htarget
  obtain rfl : target = target26 imm := BitVec.eq_of_toNat_eq (htarget.trans (toNat_target26 imm).symm)
  exact ⟨⟨encodesAs_imm26 fun _ => rfl, jump_meaning rfl rfl⟩,
    ⟨encodesAs_imm26 fun _ => rfl, jump_meaning rfl s.z_eq_odd⟩,
    ⟨encodesAs_imm26 fun _ => rfl, jump_meaning rfl s.not_z_eq_even⟩⟩

/-! ### The fetch at a bad target (R163) -/

/-- Both causes of a fetch fault give the same record (R55, R57). -/
theorem State.fetch_of_bad_pc {s : State} (h : ¬ s.pc.toNat + 4 ≤ s.config.memBytes ∨
    (s.pc.toNat % 4 ≠ 0 ∧ s.config.misalignedFetch = .fault)) :
    s.fetch = .error (.memFault .fetch s.pc.toNat s.pc) := by
  obtain ⟨-, -, hf⟩ | ⟨-, -, hf⟩ | ⟨hpasses, hin, -⟩ := s.fetch_cases
  · exact hf
  · exact hf
  · exact absurd h (not_or.2 ⟨not_not.2 hin, hpasses⟩)

/-- A running state with no request takes the instruction step (R160, R211). -/
theorem step_of_no_request {s : State} (hs : s.status = .running) (hreq : s.cancelRequested = false) :
    step s = instrStep s := by
  obtain ⟨hstop, -⟩ | ⟨-, hc, -⟩ | ⟨-, -, hstep⟩ := step_cases s
  · exact absurd hs hstop
  · simp [State.takesCancel_of_no_request hreq] at hc
  · rw [hstep, s.polled_of_no_request hreq]

/-- Where the fetch fails, that step takes the fetch's fault (R204). -/
theorem step_of_fetch_error {s : State} {record : Status} (hs : s.status = .running)
    (hreq : s.cancelRequested = false) (hf : s.fetch = .error record) : step s = .next (s.takeFault record) := by
  rw [step_of_no_request hs hreq]
  simp only [instrStep, hf]

/-- Settles O24: the jump itself keeps status, request and parameters, and the fetch at the PC it leaves fails. -/
theorem targetsAreCheckedAtTheirFetch : Obligations.TargetsAreCheckedAtTheirFetch := by
  intro i s hop
  obtain ⟨target, hexec⟩ := exec_jump hop s
  obtain ⟨hstatus, hrequest, -, hconfig⟩ := (jump_effect s (takesJump s i) target).run
  refine ⟨_, hexec, hstatus, fun hs hreq hbad => ⟨_, ?_, takeFault_onlyStatus _ _⟩⟩
  rw [← hconfig] at hbad
  exact step_of_fetch_error (hstatus.trans hs) (hrequest.trans hreq) (State.fetch_of_bad_pc hbad)

/-! ### The step that runs the decoded instruction (R160) -/

/-- With a request raised, the step that reaches i is the cancellation, or i with one more boundary passed (R212). -/
theorem step_of_fetch_requested {s : State} {w : Word} {i : Instr} (hs : s.status = .running)
    (hreq : s.cancelRequested = true) (hf : s.fetch = .ok w) (hd : decode s.config.opc w = .instr i) :
    step s = .next s.cancel ∨ step s = exec i { s with cancelPolls := s.cancelPolls + 1 } := by
  obtain ⟨hstop, -⟩ | ⟨-, -, hcancel⟩ | ⟨-, -, hstep⟩ := step_cases s
  · exact absurd hs hstop
  · exact .inl hcancel
  · have hinstr : instrStep s.polled = exec i s.polled := by
      simp only [instrStep, s.fetch_polled, hf, s.config_polled, hd]
    exact .inr (by rw [hstep, hinstr, s.polled_of_request hreq])

/-- Settles O34: past its two checks the fetch gives the word of the four bytes, which decodes to i. -/
theorem stepRunsTheDecodedInstruction : Obligations.StepRunsTheDecodedInstruction := by
  rintro s p i rfl hs hin halign hdecode
  have hfetch := State.fetch_of_inRange halign hin
  exact ⟨fun hreq => step_of_fetch hs hreq hfetch hdecode,
    fun hreq => step_of_fetch_requested hs hreq hfetch hdecode⟩

/-! ### Halting (R171) -/

/-- Writing a slot its own value changes nothing. -/
theorem State.setX_self (s : State) (i : Reg) : s.setX i (s.x i) = s := by
  by_cases hi : i = 0#5
  · rw [hi, s.setX_zero]
  · simp [State.setX, hi, s.x_of_ne hi]

/-- A jump to its own address, taken, leaves the state exactly as it is. -/
theorem State.jump_self (s : State) : s.jump true s.pc = s := s.setX_self Reg.pc

theorem step_of_atHalt {s : State} (hs : s.status = .running) (hreq : s.cancelRequested = false)
    (h : AtHalt s) : step s = .next s := by
  obtain ⟨w, imm, hfetch, hdecode, hself⟩ := h
  calc step s = exec (.jmpi imm) s := step_of_fetch hs hreq hfetch hdecode
    _ = .next (s.jump true (target26 imm)) := rfl
    _ = .next s := by rw [hself, s.jump_self]

/-- A state that steps to itself is where every run from it ends. -/
theorem run_of_step_self {M : Host.Core} {s : M.State} (h : M.step s = .next s) (n : Nat) :
    M.run n s = .next s := by
  induction n with
  | zero => rfl
  | succ n ih => rw [Host.Core.run, h]; exact ih

/-- Settles O42: a step at the halt answers the same state, so every run does. -/
theorem haltLoopsInPlace : Obligations.HaltLoopsInPlace :=
  fun _ hs hreq h => run_of_step_self (M := Sys2Proof.core) (step_of_atHalt hs hreq h)

/-! ### Calling (R170) -/

/-- Where MOV r29, r30 and ADDI r29, r29, 12 end: the return address in r29, the call's jump next. -/
def State.linked (s : State) : State :=
  (s.moveResult 29 s.pc false).aluResult 29 ((s.moveResult 29 s.pc false).x 29 + sext32 12)

theorem State.status_linked (s : State) : s.linked.status = s.status := by
  rw [State.linked, State.status_aluResult, State.status_moveResult]

theorem State.x_linked (s : State) : s.linked.x 29 = s.pc + 12 := by
  have hmoved : (s.moveResult 29 s.pc false).x 29 = s.pc :=
    (moveResult_registers s 29 s.pc false).result (by decide) (by decide) fun _ => rfl
  have himm : sext32 12 = 12 := by decide
  rw [State.linked, x_aluResult_self _ (by decide) (by decide) (by decide), hmoved, himm]

theorem runInstrs_link {s : State} (hs : s.status = .running) (is : List Instr) :
    runInstrs (.mov 29 Reg.pc :: .addi 29 29 12 :: is) s = runInstrs is s.linked := by
  have hmoved : (s.moveResult 29 s.pc false).status = .running := by rw [State.status_moveResult, hs]
  rw [runInstrs_cons _ rfl hmoved]
  exact runInstrs_cons is rfl (s.status_linked.trans hs)

/-- Settles O52: JMPI keeps the return address linked before it, and JMP r29 goes where r29 says. -/
theorem callIdiomReturns : Obligations.CallIdiomReturns := by
  intro s f hs
  obtain ⟨t, hrun, hjump⟩ := run_jmpi (s.status_linked.trans hs) f
  refine ⟨⟨t, ?_, (hjump.others 29 (by decide)).trans s.x_linked, hjump.nextPc⟩, fun u hu => ?_⟩
  · rw [runInstrs_link hs, hrun]
  · exact ⟨_, rfl, (jump_effect u true (u.x 29)).nextPc.trans hu⟩

/-! ### Writing r30 (R172) -/

/-- The instruction completes, and the value R172 has it write to r30 is the integer of its rule. -/
def CompletesWritingPc (s : State) (i : Instr) : Prop :=
  ∃ t, exec i s = .next t ∧ t.status = s.status ∧ SequentialPc s t (some (BitVec.ofNat 32 (writtenToPc s i)))

section
variable {i : Instr} {s : State} {r1 : Reg} {v : Word}

theorem completesWritingPc_of_aluResult (hd : Reg.pc ∈ [r1]) (hi : exec i s = .next (s.aluResult r1 v))
    (hv : v.toNat = writtenToPc s i % 2 ^ 32) : CompletesWritingPc s i := by
  obtain rfl := List.mem_singleton.1 hd
  exact ⟨_, hi, s.status_aluResult .., (aluResult_effect s Reg.pc hv).nextPc⟩

theorem completesWritingPc_of_moveResult {zf : Bool} (hd : Reg.pc ∈ [r1])
    (hi : exec i s = .next (s.moveResult r1 v zf)) (hv : v.toNat = writtenToPc s i) : CompletesWritingPc s i := by
  obtain rfl := List.mem_singleton.1 hd
  obtain rfl : v = BitVec.ofNat 32 (writtenToPc s i) := by rw [← hv, BitVec.ofNat_toNat, BitVec.setWidth_eq]
  exact ⟨_, hi, s.status_moveResult .., (moveResult_registers s Reg.pc _ zf).nextPc⟩

end

/-- READ's input port is no part of what R172 speaks of. -/
theorem completesWritingPc_read {s : State} {r1 : Reg} (hd : Reg.pc ∈ [r1]) : CompletesWritingPc s (.read r1) := by
  obtain rfl := List.mem_singleton.1 hd
  have hpc := (moveResult_registers s.tookInput Reg.pc s.input s.config.zfRead).nextPc
  refine ⟨_, rfl, s.tookInput.status_moveResult .., ?_⟩
  rw [writtenToPc, BitVec.ofNat_toNat, BitVec.setWidth_eq]
  exact hpc

theorem writtenToPc_mul (s : State) (r1 r2 r3 r4 : Reg) : writtenToPc s (.mul r1 r2 r3 r4) =
    if r2 = Reg.pc then product (s.x r3) (s.x r4) / 2 ^ 32 else product (s.x r3) (s.x r4) := rfl

/-- MUL's later write to r30 is the one that counts (R113). -/
theorem completesWritingPc_mul {s : State} {r1 r2 r3 r4 : Reg} (hd : Reg.pc ∈ [r1, r2]) :
    CompletesWritingPc s (.mul r1 r2 r3 r4) := by
  refine ⟨_, exec_mul r1 r2 r3 r4 s, (s.sameRun_mulResult ..).status, ?_⟩
  have hpc := s.sequentialPc_mulResult r1 r2 (BitVec.ofNat 32 (product (s.x r3) (s.x r4)))
    (BitVec.ofNat 32 (product (s.x r3) (s.x r4) / 2 ^ 32))
  rw [writtenToPc_mul]
  by_cases h2 : r2 = Reg.pc
  · rwa [if_pos h2] at hpc ⊢
  · have h1 : r1 = Reg.pc := by simpa [Ne.symm h2, eq_comm] using hd
    rw [if_neg h2, if_pos h1] at hpc
    rwa [if_neg h2]

/-- Every instruction with r30 as a destination writes its rule's integer to it, or is a load that faults. -/
theorem completesWritingPc_or_loadFault {i : Instr} (s : State) (hd : Reg.pc ∈ dests i) :
    CompletesWritingPc s i ∨
      i.op = .lw ∧ ∃ record, record ≠ .running ∧ exec i s = .next (s.takeFault record) := by
  cases i with
  | not => exact .inl (completesWritingPc_of_aluResult hd rfl (toNat_eq_mod (toNat_complement _)))
  | xor => exact .inl (completesWritingPc_of_aluResult hd rfl (toNat_eq_mod (BitVec.toNat_xor ..)))
  | or => exact .inl (completesWritingPc_of_aluResult hd rfl (toNat_eq_mod (BitVec.toNat_or ..)))
  | and => exact .inl (completesWritingPc_of_aluResult hd rfl (toNat_eq_mod (BitVec.toNat_and ..)))
  | shl => exact .inl (completesWritingPc_of_aluResult hd rfl (toNat_shiftLeft_one _))
  | shr => exact .inl (completesWritingPc_of_aluResult hd rfl (toNat_eq_mod (toNat_shiftRight_one _)))
  | rotl => exact .inl (completesWritingPc_of_aluResult hd rfl (toNat_eq_mod (toNat_rotateLeft_one _)))
  | rotr => exact .inl (completesWritingPc_of_aluResult hd rfl (toNat_eq_mod (toNat_rotateRight_one _)))
  | add => exact .inl (completesWritingPc_of_aluResult hd rfl (BitVec.toNat_add ..))
  | sub => exact .inl (completesWritingPc_of_aluResult hd rfl (toNat_sub_word ..))
  | inc => exact .inl (completesWritingPc_of_aluResult hd rfl (BitVec.toNat_add ..))
  | dec => exact .inl (completesWritingPc_of_aluResult hd rfl (toNat_sub_word _ 1))
  | mul => exact .inl (completesWritingPc_mul hd)
  | ori => exact .inl (completesWritingPc_of_aluResult hd rfl (toNat_eq_mod (toNat_or_zext32 ..)))
  | andi => exact .inl (completesWritingPc_of_aluResult hd rfl (toNat_eq_mod (toNat_and_zext32 ..)))
  | addi r1 r2 imm =>
    exact .inl (completesWritingPc_of_aluResult hd rfl (by rw [BitVec.toNat_add, toNat_sext32, writtenToPc]))
  | mov => exact .inl (completesWritingPc_of_moveResult hd rfl rfl)
  | lw r1 r2 =>
    by_cases hin : byteAddress (s.x r2) + 4 ≤ s.config.memBytes
    · exact .inl (completesWritingPc_of_moveResult hd (exec_lw_of_inRange hin) (s.mem.toNat_word _))
    · exact .inr ⟨rfl, _, by simp, exec_lw_of_out hin⟩
  | movh r1 imm => exact .inl (completesWritingPc_of_moveResult hd rfl (toNat_upper32 imm))
  | read => exact .inl (completesWritingPc_read hd)
  | _ => simp [dests] at hd

/-- R172 in integers: the PC after a written r30, under each value of the parameter. -/
theorem SequentialPc.toNat_pc {s t : State} {n : Nat} (h : SequentialPc s t (some (BitVec.ofNat 32 n))) :
    (s.config.pcSeqBase = .fetchPC → t.pc.toNat = (s.pc.toNat + 4) % 2 ^ 32) ∧
      (s.config.pcSeqBase = .r30AfterExecute → t.pc.toNat = (n + 4) % 2 ^ 32) ∧
      (s.config.pcSeqBase = .notTold →
        t.pc.toNat = (s.pc.toNat + 4) % 2 ^ 32 ∨ t.pc.toNat = (n + 4) % 2 ^ 32) := by
  have hfetch : t.pc = s.pc + 4 → t.pc.toNat = (s.pc.toNat + 4) % 2 ^ 32 := fun hpc => by
    rw [hpc, toNat_add_four]
  have hwritten : t.pc = BitVec.ofNat 32 n + 4 → t.pc.toNat = (n + 4) % 2 ^ 32 := fun hpc => by
    rw [hpc, toNat_add_four, BitVec.toNat_ofNat, Nat.mod_add_mod]
  refine ⟨fun hb => ?_, fun hb => ?_, fun hb => ?_⟩ <;> simp only [SequentialPc, hb] at h
  · exact hfetch h
  · exact hwritten h
  · exact h.imp hfetch hwritten

/-- Settles O32: the value written to r30, then the sequential PC in integers; a load that faulted is not running. -/
theorem writesToThePcSlot : Obligations.WritesToThePcSlot := by
  intro i s hd hs
  obtain ⟨t, hexec, hstatus, hpc⟩ | ⟨hlw, record, hrecord, hexec⟩ := completesWritingPc_or_loadFault s hd
  · exact ⟨t, hexec, fun _ => hstatus.trans hs, fun _ => hpc.toNat_pc⟩
  · exact ⟨_, hexec, fun hop => absurd hlw hop, fun hrunning => absurd hrunning hrecord⟩

end Sys2Proof.Machine
end

section
/-! PROOFS for the statements of the I/O family: READ, DRAW and CLEAR, and how many presentations a sequence of
instructions requests. One equation says what each of the three does; the count of presentations is a balance that each
instruction keeps (`NextOf.presents_balance`) and a sequence adds up. -/

namespace Sys2Proof.Machine

/-! ### What an instruction that uses a port leaves alone -/

theorem SameRun.trans {s u t : State} (h : SameRun s u) (h' : SameRun u t) : SameRun s t :=
  ⟨h'.status.trans h.status, h'.cancelRequested.trans h.cancelRequested, h'.cancelPolls.trans h.cancelPolls,
    h'.config.trans h.config⟩

theorem sameRun_advance (t : State) (pc : Word) : SameRun t (t.advance pc) :=
  ⟨t.status_advance pc, t.cancelRequested_advance pc, t.cancelPolls_advance pc, t.config_advance pc⟩

theorem sameRun_tookInput (s : State) : SameRun s s.tookInput := ⟨rfl, rfl, rfl, rfl⟩

theorem sameRun_emit (s : State) (e : Event) : SameRun s (s.emit e) := ⟨rfl, rfl, rfl, rfl⟩

/-! ### READ (R181) -/

theorem InputSource.value_alwaysZero (n : Nat) : InputSource.value .alwaysZero n = 0 := rfl

theorem InputSource.value_free_of_lt {vs : List Word} {n : Nat} (h : n < vs.length) :
    InputSource.value (.free vs) n = vs[n] := by
  simp only [InputSource.value, List.getElem?_eq_getElem h, Option.getD_some]

theorem exec_read (r1 : Reg) (s : State) :
    exec (.read r1) s = .next (s.tookInput.moveResult r1 s.input s.config.zfRead) := rfl

/-- No register is read from the input port, so a move after the value is taken is a move from s. -/
theorem moveRegisters_of_tookInput {s t : State} {r1 : Reg} {v : Word} {zf : Bool}
    (h : MoveRegisters s.tookInput t r1 v zf) : MoveRegisters s t r1 v zf :=
  ⟨h.result, h.slot0, h.flagsOn, h.flagsOff, h.others, h.nextPc⟩

/-- Settles O25: READ is the move of the input value, from the state with that value taken. -/
theorem readTakesOneInput : Obligations.ReadTakesOneInput := by
  intro r1 s
  refine ⟨encodesAs_register fun _ => rfl, ?_, fun hzero => ?_, fun vs hfree hlt => ?_⟩
  · exact ⟨_, exec_read r1 s, moveRegisters_of_tookInput (moveResult_registers ..),
      s.tookInput.inputCount_moveResult .., s.tookInput.drawCount_moveResult .., s.tookInput.events_moveResult ..,
      sameMemory_of_mem (s.tookInput.mem_moveResult ..),
      (sameRun_tookInput s).trans (sameRun_moveResult s.tookInput ..)⟩
  · rw [State.input, hzero, InputSource.value_alwaysZero]
  · rw [State.input, hfree, InputSource.value_free_of_lt hlt]

/-! ### DRAW (R182) -/

theorem toNat_pixelX (c : Word) : (pixelX c).toNat = c.toNat % 256 := by
  simp [pixelX]

theorem toNat_pixelY (c : Word) : (pixelY c).toNat = c.toNat / 256 % 256 := extract_toNat c 8 8

theorem toNat_pixelRgb (k : Word) : (pixelRgb k).toNat = k.toNat % 2 ^ 24 := by
  simp [pixelRgb]

/-- What DRAW appends to the framebuffer event sequence. -/
def State.drawEvents (s : State) (r1 r2 : Reg) : List Event :=
  .setPixel (pixelX (s.x r1)) (pixelY (s.x r1)) (pixelRgb (s.x r2)) ::
    if (s.drawCount + 1) % 256 = 0 then [.present] else []

/-- The state after DRAW's events and its count, before the PC advances. -/
def State.drawn (s : State) (r1 r2 : Reg) : State :=
  { s with events := s.events ++ s.drawEvents r1 r2, drawCount := s.drawCount + 1 }

theorem exec_draw (r1 r2 : Reg) (s : State) : exec (.draw r1 r2) s = .next ((s.drawn r1 r2).advance s.pc) := by
  by_cases h : (s.drawCount + 1) % 256 = 0 <;>
    simp [exec, execDraw, State.drawn, State.drawEvents, State.emit, State.countDraw, h]

theorem sameRun_drawn (s : State) (r1 r2 : Reg) : SameRun s (s.drawn r1 r2) := ⟨rfl, rfl, rfl, rfl⟩

/-- Settles O26: the events and the count of `drawn`, and an advance that leaves both. -/
theorem drawPlotsOnePixel : Obligations.DrawPlotsOnePixel := by
  intro r1 r2 s
  exact ⟨encodesAs_two_registers fun _ => rfl, _, _, _, _, exec_draw r1 r2 s,
    (s.drawn r1 r2).events_advance s.pc, toNat_pixelX _, toNat_pixelY _, toNat_pixelRgb _,
    (s.drawn r1 r2).drawCount_advance s.pc, (s.drawn r1 r2).inputCount_advance s.pc, advance_onlyPc rfl,
    sameMemory_of_mem ((s.drawn r1 r2).mem_advance s.pc),
    (sameRun_drawn s r1 r2).trans (sameRun_advance _ s.pc)⟩

/-! ### CLEAR (R183) -/

/-- The word of an operation without operands (R73). -/
theorem encodesAs_no_operand {i : Instr} {op : Op} (h : ∀ m, encode m i = encR (m.code op) 0 0 0 0) :
    EncodesAs i op 0 := by
  simpa using encodesAs_register h

/-- The state after CLEAR's two events, before the PC advances. -/
def State.cleared (s : State) : State := (s.emit .clearToBlack).emit .present

theorem exec_clear (s : State) : exec .clear s = .next (s.cleared.advance s.pc) := rfl

theorem events_cleared (s : State) : s.cleared.events = s.events ++ [.clearToBlack, .present] := by
  simp [State.cleared]

/-- Settles O27: no operand is read from the word, and the two events leave every other field. -/
theorem clearPresentsAtOnce : Obligations.ClearPresentsAtOnce := by
  refine ⟨fun m p hm => decode_append hm .clear p rfl, encodesAs_no_operand fun _ => rfl, fun s => ?_⟩
  exact ⟨_, exec_clear s, (s.cleared.events_advance s.pc).trans (events_cleared s),
    s.cleared.drawCount_advance s.pc, s.cleared.inputCount_advance s.pc, advance_onlyPc rfl,
    sameMemory_of_mem (s.cleared.mem_advance s.pc),
    ((sameRun_emit s _).trans (sameRun_emit _ _)).trans (sameRun_advance _ s.pc)⟩

/-! ### How many presentations a sequence requests (R184) -/

theorem countOp_cons (op : Op) (i : Instr) (is : List Instr) :
    countOp op (i :: is) = countOp op is + (if i.op = op then 1 else 0) := by
  simp [countOp, List.countP_cons]

/-- A sequence that completes is an instruction that does and then the rest. -/
theorem exec_of_runInstrs_cons {i : Instr} {is : List Instr} {s t : State} (h : runInstrs (i :: is) s = some t) :
    ∃ u, exec i s = .next u ∧ runInstrs is u = some t := by
  obtain ⟨u, hu, -⟩ := exec_next i s
  simp only [runInstrs, hu] at h
  split at h
  · exact ⟨u, hu, h⟩
  · cases h

/-- Events that present once for each multiple of 256 the draw counter reaches, and n times more. -/
theorem presents_balance_of_append {s t : State} {es : List Event} {n : Nat} (he : t.events = s.events ++ es)
    (hes : presents es + s.drawCount / 256 = t.drawCount / 256 + n) :
    presents t.events + s.drawCount / 256 = presents s.events + t.drawCount / 256 + n := by
  rw [he, presents_append]
  omega

/-- One instruction presents once for each multiple of 256 the draw counter reaches, and once if it is a CLEAR. -/
theorem NextOf.presents_balance {i : Instr} {s t : State} (h : NextOf s i t) :
    presents t.events + s.drawCount / 256 =
      presents s.events + t.drawCount / 256 + (if i.op = .clear then 1 else 0) := by
  cases h with
  | draw r1 r2 e he hno =>
    obtain ⟨-, hpre, -⟩ := counts_setPixel he
    refine presents_balance_of_append (es := [e]) (by simp) ?_
    simp only [hpre, State.drawCount_advance, State.drawCount_countDraw, State.drawCount_emit, Instr.op,
      reduceCtorEq, if_false]
    omega
  | drawPresent r1 r2 e he hyes =>
    obtain ⟨-, hpre, -⟩ := counts_setPixel_present he
    refine presents_balance_of_append (es := [e, .present]) (by simp) ?_
    simp only [hpre, State.drawCount_advance, State.drawCount_countDraw, State.drawCount_emit, Instr.op,
      reduceCtorEq, if_false]
    omega
  | clear =>
    obtain ⟨-, hpre, -⟩ := counts_clear
    refine presents_balance_of_append (es := [.clearToBlack, .present]) (by simp) ?_
    simp only [hpre, State.drawCount_advance, State.drawCount_emit, Instr.op, if_true, Nat.add_comm]
  | alu _ r1 res _ _ hop => simp [show i.op ≠ .clear from fun h => hop (by simp [h])]
  | jump _ taken target hop => simp [show i.op ≠ .clear from fun h => by simp [h] at hop]
  | _ => simp [Instr.op]

/-- The two counts over a sequence: each instruction's own, added up. -/
theorem runInstrs_counts {is : List Instr} {s t : State} (h : runInstrs is s = some t) :
    t.drawCount = s.drawCount + countOp .draw is ∧
      presents t.events + s.drawCount / 256 = presents s.events + t.drawCount / 256 + countOp .clear is := by
  induction is generalizing s with
  | nil =>
    cases h
    exact ⟨rfl, rfl⟩
  | cons i is ih =>
    obtain ⟨u, hexec, hrest⟩ := exec_of_runInstrs_cons h
    have hn := nextOf_of_exec hexec
    have hdraw := hn.drawCount_eq
    have hpresents := hn.presents_balance
    obtain ⟨ihdraw, ihpresents⟩ := ih hrest
    rw [countOp_cons, countOp_cons]
    omega

/-- Settles O28, by induction on the sequence. -/
theorem presentsAreCounted : Obligations.PresentsAreCounted := by
  intro is s t h
  obtain ⟨hdraw, hpresents⟩ := runInstrs_counts h
  refine ⟨hdraw, ?_⟩
  rw [hdraw] at hpresents
  omega

end Sys2Proof.Machine
end

section
/-! PROOFS for the statements of the exceptions family: the fetch and decode faults of one step, and the two theorems
about every step that ends in a terminal status. Both go through `terminal_step_cases`: such a step is the
cancellation, or it takes a fault of the table (`FaultRow`) and changes nothing else. -/

namespace Sys2Proof.Machine

/-! ### A fetch and a decode that fault (R201, R203) -/

/-- Settles O36: both causes of a fetch fault give one record, which the step takes. -/
theorem fetchFaultStep : Obligations.FetchFaultStep :=
  fun _ hs hreq hbad => ⟨_, step_of_fetch_error hs hreq (State.fetch_of_bad_pc hbad), takeFault_onlyStatus _ _⟩

/-- Where no operation has the fetched word's opcode, the step takes the decode fault (R201). -/
theorem step_of_undefined_opcode {s : State} {w : Word} (hs : s.status = .running)
    (hreq : s.cancelRequested = false) (hf : s.fetch = .ok w)
    (hop : ∀ op, s.config.opc.code op ≠ w.extractLsb' 26 6) :
    step s = .next (s.takeFault (.decodeFault (w.extractLsb' 26 6) s.pc)) := by
  have hd : decode s.config.opc w = .undefinedOpcode (w.extractLsb' 26 6) :=
    decode_of_dispatch_none (dispatch_eq_none.2 hop)
  rw [step_of_no_request hs hreq]
  simp only [instrStep, hf, hd]

/-- Settles O37. -/
theorem decodeFaultStep : Obligations.DecodeFaultStep :=
  fun _ _ hs hreq hf hop => ⟨_, step_of_undefined_opcode hs hreq hf hop, takeFault_onlyStatus _ _⟩

/-! ### The table of faults (R205), in the order of the checks (R207) -/

/-- The rows of the fault table in state s: the condition of each, with the checks before it passed, and the record
that it leaves. -/
inductive FaultRow (s : State) : Status → Prop
  | fetch (h : ¬ s.pc.toNat + 4 ≤ s.config.memBytes ∨
      (s.pc.toNat % 4 ≠ 0 ∧ s.config.misalignedFetch = .fault)) :
      FaultRow s (.memFault .fetch s.pc.toNat s.pc)
  | decode (w : Word) (hf : s.fetch = .ok w) (hop : ∀ op, s.config.opc.code op ≠ w.extractLsb' 26 6) :
      FaultRow s (.decodeFault (w.extractLsb' 26 6) s.pc)
  | load (w : Word) (r1 r2 : Reg) (hf : s.fetch = .ok w) (hd : decode s.config.opc w = .instr (.lw r1 r2))
      (hout : ¬ byteAddress (s.x r2) + 4 ≤ s.config.memBytes) :
      FaultRow s (.memFault .load (byteAddress (s.x r2)) s.pc)
  | store (w : Word) (r1 r2 : Reg) (hf : s.fetch = .ok w) (hd : decode s.config.opc w = .instr (.sw r1 r2))
      (hout : ¬ byteAddress (s.x r1) + 4 ≤ s.config.memBytes) :
      FaultRow s (.memFault .store (byteAddress (s.x r1)) s.pc)

/-- The count of untaken boundaries decides no fault. -/
theorem FaultRow.of_polled {s : State} {record : Status} (h : FaultRow s.polled record) : FaultRow s record := by
  cases h with
  | fetch h =>
    rw [s.pc_polled]
    exact .fetch (by simpa using h)
  | decode w hf hop =>
    rw [s.pc_polled]
    exact .decode w (by simpa using hf) (by simpa using hop)
  | load w r1 r2 hf hd hout =>
    rw [s.pc_polled, s.x_polled]
    exact .load w r1 r2 (by simpa using hf) (by simpa using hd) (by simpa using hout)
  | store w r1 r2 hf hd hout =>
    rw [s.pc_polled, s.x_polled]
    exact .store w r1 r2 (by simpa using hf) (by simpa using hd) (by simpa using hout)

theorem faultRow_of_fetch_error {s : State} {record : Status} (h : s.fetch = .error record) :
    FaultRow s record := by
  rw [fetch_error h]
  obtain ⟨hmisaligned, hfault, -⟩ | ⟨-, hout, -⟩ | ⟨-, -, hok⟩ := s.fetch_cases
  · exact .fetch (.inr ⟨hmisaligned, hfault⟩)
  · exact .fetch (.inl hout)
  · rw [h] at hok
    cases hok

/-- The opcode a refused word is refused with is its opcode field (R201). -/
theorem opcode_of_decode_undefined {m : OpcodeMap} {w : Word} {opcode : BitVec 6}
    (h : decode m w = .undefinedOpcode opcode) : opcode = w.extractLsb' 26 6 := by
  obtain ⟨op, -, hd⟩ | ⟨-, hd⟩ := decode_cases m w <;> rw [h] at hd <;> cases hd
  rfl

theorem faultRow_of_decode_undefined {s : State} {w : Word} {opcode : BitVec 6} (hf : s.fetch = .ok w)
    (hd : decode s.config.opc w = .undefinedOpcode opcode) : FaultRow s (.decodeFault opcode s.pc) := by
  have hop := code_ne_of_decode_undefined hd
  rw [opcode_of_decode_undefined hd] at hop ⊢
  exact .decode w hf hop

/-- Of the instructions, only a load or a store out of range ends in a terminal status, by its own row. -/
theorem NextOf.faultRow {i : Instr} {s t : State} {w : Word} (h : NextOf s i t) (hs : s.status = .running)
    (hf : s.fetch = .ok w) (hd : decode s.config.opc w = .instr i) (ht : t.status ≠ .running) :
    ∃ record, FaultRow s record ∧ t = s.takeFault record := by
  cases h with
  | lwFault r1 r2 hout => exact ⟨_, .load w r1 r2 hf hd hout, rfl⟩
  | swFault r1 r2 hout => exact ⟨_, .store w r1 r2 hf hd hout, rfl⟩
  | _ => exact absurd (by simpa using hs) ht

theorem instrStep_faultRow {s t : State} (h : instrStep s = .next t) (hs : s.status = .running)
    (ht : t.status ≠ .running) : ∃ record, FaultRow s record ∧ t = s.takeFault record := by
  obtain ⟨record, hf, hi⟩ | ⟨w, opcode, hf, hd, hi⟩ | ⟨w, i, hf, hd, hi⟩ := instrStep_cases s <;> rw [h] at hi
  · cases hi
    exact ⟨_, faultRow_of_fetch_error hf, rfl⟩
  · cases hi
    exact ⟨_, faultRow_of_decode_undefined hf hd, rfl⟩
  · exact (nextOf_of_exec hi.symm).faultRow hs hf hd ht

/-- The two ways a step ends in a terminal status: the cancellation (R212), or a fault of the table (R204). -/
theorem terminal_step_cases {s t : State} (h : step s = .next t) (ht : t.status ≠ .running) :
    t = s.cancel ∨ ∃ record, FaultRow s record ∧ t = s.polled.takeFault record := by
  obtain ⟨-, hstep⟩ | ⟨-, -, hstep⟩ | ⟨hs, -, hstep⟩ := step_cases s <;> rw [h] at hstep
  · cases hstep
  · cases hstep
    exact .inl rfl
  · obtain ⟨record, hrow, rfl⟩ := instrStep_faultRow hstep.symm (s.status_polled.trans hs) ht
    exact .inr ⟨record, hrow.of_polled, rfl⟩

/-! ### Faults are precise (R204) -/

/-- A change of status alone, from the state that may have passed one more boundary. -/
theorem OnlyStatus.same_of_polled {s t : State} {record : Status} (h : OnlyStatus s.polled t record) :
    SameRegisters s t ∧ SameMemory s t ∧ SamePorts s t := by
  obtain ⟨hdraw, hevents, hinput⟩ := h.ports
  exact ⟨fun i => (h.registers i).trans (s.x_polled i),
    fun a => (h.memory a).trans (sameMemory_of_mem s.mem_polled a),
    ⟨hdraw.trans s.drawCount_polled, hevents.trans s.events_polled, hinput.trans s.inputCount_polled⟩⟩

/-- Settles O40: the cancellation and a fault taken are both a change of status alone, and a terminal status has no
step. -/
theorem faultsArePrecise : Obligations.FaultsArePrecise := by
  intro s t h ht
  have hstopped : step t = .fault (.stopped t.status) := (onlyRunningHasANextStep t).2 ht
  obtain rfl | ⟨record, -, rfl⟩ := terminal_step_cases h ht
  · have honly := cancel_onlyStatus s
    exact ⟨.inl honly, honly.registers, honly.memory, honly.ports, fun _ => honly, hstopped⟩
  · have honly := takeFault_onlyStatus s.polled record
    obtain ⟨hregisters, hmemory, hports⟩ := honly.same_of_polled
    refine ⟨.inr honly, hregisters, hmemory, hports, fun hreq => ?_, hstopped⟩
    rw [s.polled_of_no_request hreq]
    exact takeFault_onlyStatus s record

/-! ### Each record comes from its row (R205, R207) -/

/-- A record that a step leaves, other than Running and Cancelled, comes from its row. -/
theorem faultRow_of_step {s t : State} {record : Status} (h : step s = .next t) (ht : t.status = record)
    (hr : record ≠ .running) (hc : record ≠ .cancelled) : FaultRow s record := by
  subst ht
  obtain rfl | ⟨record, hrow, rfl⟩ := terminal_step_cases h hr
  · exact absurd rfl hc
  · exact hrow

theorem status_eq_of_exec {i : Instr} {s t : State} (h : exec i s = .next t) (hlw : i.op ≠ .lw)
    (hsw : i.op ≠ .sw) : t.status = s.status := by
  obtain hst | ⟨hmem, -⟩ := (nextOf_of_exec h).status_cases
  · exact hst
  · simp [hlw, hsw] at hmem

/-- Settles O41: the record names its row, and the row holds the conditions. -/
theorem faultsComeFromTheTable : Obligations.FaultsComeFromTheTable := by
  refine ⟨fun i s t => status_eq_of_exec, fun s t _ h => ⟨fun kind a p ht => ?_, fun opcode p ht => ?_⟩⟩
  · cases faultRow_of_step h ht (by simp) (by simp) with
    | fetch hbad => exact ⟨rfl, .inl ⟨rfl, rfl, hbad⟩⟩
    | load w r1 r2 hf hd hout => exact ⟨rfl, .inr (.inl ⟨rfl, hout, w, r1, r2, hf, hd, rfl⟩)⟩
    | store w r1 r2 hf hd hout => exact ⟨rfl, .inr (.inr ⟨rfl, hout, w, r1, r2, hf, hd, rfl⟩)⟩
  · cases faultRow_of_step h ht (by simp) (by simp) with
    | decode w hf hop => exact ⟨rfl, w, hf, rfl, hop⟩

end Sys2Proof.Machine
end

section
/-! PROOFS for the statements of the reset and hazards family: which parameters one instruction's execution can depend
on, and the reset state. Each operation a meaning is built from commutes with a change of the parameters (`withConfig`),
the PC update and the two accesses under a condition on one parameter; `ReadsAlike` collects these conditions for an
instruction, and `exec_runsAlike` puts the operations together. -/

namespace Sys2Proof.Machine

/-! ### A change of the parameters under each operation (R37) -/

section
variable (s : State) (d : Config)

@[simp] theorem State.pc_withConfig : (s.withConfig d).pc = s.pc := rfl

@[simp] theorem State.config_withConfig : (s.withConfig d).config = d := rfl

theorem State.setX_withConfig (i : Reg) (v : Word) :
    (s.withConfig d).setX i v = (s.setX i v).withConfig d := by
  unfold State.setX
  split <;> rfl

theorem State.setPc_withConfig (v : Word) : (s.withConfig d).setPc v = (s.setPc v).withConfig d :=
  s.setX_withConfig d _ v

theorem State.setZ_withConfig (v : Word) : (s.withConfig d).setZ v = (s.setZ v).withConfig d :=
  s.setX_withConfig d _ _

theorem State.setZIf_withConfig (on : Bool) (v : Word) :
    (s.withConfig d).setZIf on v = (s.setZIf on v).withConfig d := by
  cases on with
  | false => rfl
  | true => exact s.setZ_withConfig d v

end

section
variable {s : State} {d : Config}

/-- The PC update looks at `PC_SEQ_BASE` only where slot 30 was written (R161, R172). -/
theorem State.advance_withConfig {pc : Word} (h : s.pc = pc ∨ d.pcSeqBase = s.config.pcSeqBase) :
    (s.withConfig d).advance pc = (s.advance pc).withConfig d := by
  have hbase : seqBase d.pcSeqBase pc s.pc = seqBase s.config.pcSeqBase pc s.pc := by
    obtain rfl | hd := h
    · rw [seqBase_self, seqBase_self]
    · rw [hd]
  rw [State.advance, State.config_withConfig, State.pc_withConfig, hbase]
  exact s.setPc_withConfig d _

theorem State.jump_withConfig (taken : Bool) (target : Word) :
    (s.withConfig d).jump taken target = (s.jump taken target).withConfig d := by
  cases taken with
  | false => exact State.advance_withConfig (.inl rfl)
  | true => exact s.setPc_withConfig d target

theorem State.moveResult_withConfig {r1 : Reg} (v : Word) (zf : Bool)
    (h : Reg.pc = r1 → d.pcSeqBase = s.config.pcSeqBase) :
    (s.withConfig d).moveResult r1 v zf = (s.moveResult r1 v zf).withConfig d := by
  rw [State.moveResult, State.setX_withConfig, State.setZIf_withConfig]
  refine State.advance_withConfig ?_
  by_cases hp : Reg.pc = r1
  · exact .inr (by simpa using h hp)
  · exact .inl (by rw [State.pc_setZIf, s.pc_setX_of_ne hp, State.pc_withConfig])

theorem State.mulResult_withConfig {r1 r2 : Reg} (lo hi : Word)
    (h : Reg.pc ∈ [r1, r2] → d.pcSeqBase = s.config.pcSeqBase) :
    (s.withConfig d).mulResult r1 r2 lo hi = (s.mulResult r1 r2 lo hi).withConfig d := by
  rw [State.mulResult, State.setX_withConfig, State.setX_withConfig, State.setZ_withConfig]
  refine State.advance_withConfig ?_
  by_cases hp : Reg.pc ∈ [r1, r2]
  · exact .inr (by simpa using h hp)
  · obtain ⟨h1, h2⟩ : Reg.pc ≠ r1 ∧ Reg.pc ≠ r2 := by simpa using hp
    exact .inl (by rw [State.pc_setZ, State.pc_setX_of_ne _ h2, State.pc_setX_of_ne _ h1, State.pc_withConfig])

theorem State.stored_withConfig (r1 r2 : Reg) :
    (s.withConfig d).stored r1 r2 = (s.stored r1 r2).withConfig d :=
  State.advance_withConfig (s := { s with mem := s.mem.setWord (byteAddress (s.x r1)) (s.x r2) }) (.inl rfl)

/-! ### What an instruction reads of the parameters (R239) -/

/-- The parameters d are those of c wherever instruction i looks: `PC_SEQ_BASE` where it writes r30 (R172), a zero flag
parameter or the input source where it is the instruction named for it (R30, R42), the capacity where it accesses
memory (R55). A field left out is one that d and c share outright. -/
structure ReadsAlike (i : Instr) (c d : Config) : Prop where
  pcSeqBase : Reg.pc ∈ dests i → d.pcSeqBase = c.pcSeqBase := by exact fun _ => rfl
  zfLw : i.op = .lw → d.zfLw = c.zfLw := by exact fun _ => rfl
  zfMovh : i.op = .movh → d.zfMovh = c.zfMovh := by exact fun _ => rfl
  zfRead : i.op = .read → d.zfRead = c.zfRead := by exact fun _ => rfl
  input : i.op = .read → d.input = c.input := by exact fun _ => rfl
  memBytes : i.op ∈ [Op.lw, .sw] → d.memBytes = c.memBytes := by exact fun _ => rfl

/-- From s, instruction i has the same next state under the parameters d as under its own, the parameters apart. -/
def RunsAlike (i : Instr) (s : State) (d : Config) : Prop :=
  ∃ t, exec i s = .next t ∧ exec i (s.withConfig d) = .next (t.withConfig d)

/-- The same meaning before and after the change, and a change that commutes with it. -/
theorem runsAlike_of_eq {i : Instr} {t u : State} (h : exec i s = .next t)
    (hd : exec i (s.withConfig d) = .next u) (hu : u = t.withConfig d) : RunsAlike i s d :=
  ⟨t, h, hd.trans (congrArg _ hu)⟩

theorem runsAlike_moveResult {i : Instr} {r1 : Reg} {v : Word} {zf zf' : Bool}
    (h : exec i s = .next (s.moveResult r1 v zf))
    (hd : exec i (s.withConfig d) = .next ((s.withConfig d).moveResult r1 v zf'))
    (hpc : Reg.pc ∈ [r1] → d.pcSeqBase = s.config.pcSeqBase) (hzf : zf' = zf) : RunsAlike i s d := by
  subst hzf
  exact runsAlike_of_eq h hd (State.moveResult_withConfig v zf' fun hp => hpc (List.mem_singleton.2 hp))

/-- An ALU result is a move of the result that always updates Z. -/
theorem runsAlike_aluResult {i : Instr} {r1 : Reg} {v : Word} (h : exec i s = .next (s.aluResult r1 v))
    (hd : exec i (s.withConfig d) = .next ((s.withConfig d).aluResult r1 v))
    (hpc : Reg.pc ∈ [r1] → d.pcSeqBase = s.config.pcSeqBase) : RunsAlike i s d :=
  runsAlike_moveResult (zf := true) (zf' := true) h hd hpc rfl

/-- READ takes its value from the input source before it moves it (R181). -/
theorem runsAlike_read {r1 : Reg} (h : ReadsAlike (.read r1) s.config d) : RunsAlike (.read r1) s d := by
  have hinput : (s.withConfig d).input = s.input :=
    congrArg (InputSource.value · s.inputCount) (h.input rfl)
  refine runsAlike_of_eq (exec_read r1 s) (exec_read r1 _) ?_
  rw [hinput, State.config_withConfig, h.zfRead rfl]
  exact State.moveResult_withConfig (s := s.tookInput) s.input _ fun hp => h.pcSeqBase (List.mem_singleton.2 hp)

/-- SW and its fault look at no parameter but the capacity (R142). -/
theorem runsAlike_sw {r1 r2 : Reg} (hmem : d.memBytes = s.config.memBytes) : RunsAlike (.sw r1 r2) s d := by
  by_cases hin : byteAddress (s.x r1) + 4 ≤ s.config.memBytes
  · have hin' : byteAddress (s.x r1) + 4 ≤ d.memBytes := hmem ▸ hin
    exact runsAlike_of_eq (exec_sw_of_inRange hin) (exec_sw_of_inRange hin') (State.stored_withConfig r1 r2)
  · have hout' : ¬ byteAddress (s.x r1) + 4 ≤ d.memBytes := hmem ▸ hin
    exact runsAlike_of_eq (exec_sw_of_out hin) (exec_sw_of_out hout') rfl

/-- LW reads the capacity first, and its zero flag parameter where it completes (R143). -/
theorem runsAlike_lw {r1 r2 : Reg} (h : ReadsAlike (.lw r1 r2) s.config d) : RunsAlike (.lw r1 r2) s d := by
  have hmem : d.memBytes = s.config.memBytes := h.memBytes (by simp [Instr.op])
  by_cases hin : byteAddress (s.x r2) + 4 ≤ s.config.memBytes
  · have hin' : byteAddress (s.x r2) + 4 ≤ d.memBytes := hmem ▸ hin
    exact runsAlike_moveResult (exec_lw_of_inRange hin) (exec_lw_of_inRange hin') h.pcSeqBase (h.zfLw rfl)
  · have hout' : ¬ byteAddress (s.x r2) + 4 ≤ d.memBytes := hmem ▸ hin
    exact runsAlike_of_eq (exec_lw_of_out hin) (exec_lw_of_out hout') rfl

/-- An instruction depends on no parameter beyond those `ReadsAlike` lists for it. -/
theorem exec_runsAlike {i : Instr} (h : ReadsAlike i s.config d) : RunsAlike i s d := by
  cases i with
  | not | xor | or | and | shl | shr | rotl | rotr | add | sub | inc | dec | ori | andi | addi =>
    exact runsAlike_aluResult rfl rfl h.pcSeqBase
  | mul r1 r2 r3 r4 =>
    exact runsAlike_of_eq (exec_mul r1 r2 r3 r4 s) (exec_mul r1 r2 r3 r4 _)
      (State.mulResult_withConfig _ _ h.pcSeqBase)
  | mov => exact runsAlike_moveResult rfl rfl h.pcSeqBase rfl
  | movh => exact runsAlike_moveResult rfl rfl h.pcSeqBase (h.zfMovh rfl)
  | sw => exact runsAlike_sw (h.memBytes (by simp [Instr.op]))
  | lw => exact runsAlike_lw h
  | jmp | jz | jnz | jmpi | jmpiz | jmpinz => exact runsAlike_of_eq rfl rfl (State.jump_withConfig _ _)
  | read => exact runsAlike_read h
  | draw r1 r2 =>
    exact runsAlike_of_eq (exec_draw r1 r2 s) (exec_draw r1 r2 _)
      (State.advance_withConfig (s := s.drawn r1 r2) (.inl rfl))
  | clear =>
    exact runsAlike_of_eq (exec_clear s) (exec_clear _) (State.advance_withConfig (s := s.cleared) (.inl rfl))

/-- A change of parameters the instruction does not read leaves its next state, which still has those of s (R37). -/
theorem sameUnder_of_readsAlike {i : Instr} {t : State} {change : Config → Config} (h : exec i s = .next t)
    (hreads : ReadsAlike i s.config (change s.config)) : SameUnder i s t change := by
  obtain ⟨t', ht', hchanged⟩ := exec_runsAlike hreads
  cases h.symm.trans ht'
  rw [SameUnder, (nextOf_of_exec h).config_eq]
  exact hchanged

end

/-- Settles O33: each change leaves every parameter but one, and that one is read only by the instructions named. -/
theorem parametersMatterOnlyWhereNamed : Obligations.ParametersMatterOnlyWhereNamed := by
  intro i s t h
  refine ⟨fun hpc b => ?_, fun hlw b => ?_, fun hmovh b => ?_, fun hread b => ?_, fun hread src => ?_,
    fun hmem n => ?_, fun f => ?_, fun m => ?_⟩ <;> refine sameUnder_of_readsAlike h ?_
  · exact { pcSeqBase := fun hw => absurd hw hpc }
  · exact { zfLw := fun hop => absurd hop hlw }
  · exact { zfMovh := fun hop => absurd hop hmovh }
  · exact { zfRead := fun hop => absurd hop hread }
  · exact { input := fun hop => absurd hop hread }
  · exact { memBytes := fun hop => absurd hop hmem }
  · exact {}
  · exact {}

/-! ### Reset (R230, R231) -/

/-- Settles O45: the empty image fits any memory and lists no byte; the numbering of `Config.atReset` repeats none. -/
theorem resetIsAProcessStart : Obligations.ResetIsAProcessStart :=
  ⟨State.boot_of_fits (Nat.zero_le _), fun _ => rfl, by decide⟩

end Sys2Proof.Machine
end
